-- ==== Sys2Proof/Word.lean ====
section
/-! DEFINITION. The kinds of value the core handles. A register value or literal is a Lean `Int`, an
integer of unbounded precision (10_state.md R21, 00_scope.md R10): no operation masks, truncates or
wraps, so no bit vector appears in this model. A pc, index or line number is a `Nat`. -/

namespace Sys2Proof

/-- A finite string of Unicode scalar values (00_scope.md R13): a line, a token, an output entry.
A `Char` is a Unicode scalar value. -/
abbrev Text := List Char

end Sys2Proof
end

