-- ==== Sys2Proof/Config.lean ====
section
/-! DEFINITION. The implementation parameters of 00_scope.md R8. Their defaults stand in
Machine/Defaults.lean. -/

namespace Sys2Proof

/-- `EXTRA_TOKENS` (30_encoding.md R67): what tokens beyond the required count do. -/
inductive ExtraTokens where
  /-- The line raises `MalformedInstruction` (the default, 92_eei_decisions.md D8). -/
  | fault
  /-- The extra tokens are dropped unread. -/
  | ignore
  deriving DecidableEq, Repr

/-- `JUMP_OPERAND` (30_encoding.md R75): the form of the operand of `JMP` and `JC`. -/
inductive JumpOperand where
  /-- An integer literal only (the default, 92_eei_decisions.md D9). -/
  | literal
  /-- A value operand: a register name or a literal (30_encoding.md R73). -/
  | resolve
  deriving DecidableEq, Repr

/-- The parameters a run takes (00_scope.md R8). They are fixed for the whole run. -/
structure Params where
  /-- `CARRY_RESET` (92_eei_decisions.md D3): the carry flag after reset, `true` for 1. -/
  carryReset : Bool
  /-- `EXTRA_TOKENS` (92_eei_decisions.md D8). -/
  extraTokens : ExtraTokens
  /-- `JUMP_OPERAND` (92_eei_decisions.md D9). -/
  jumpOperand : JumpOperand
  /-- `MAX_STEPS` (92_eei_decisions.md D15): the step ceiling of the run loop, `none` for no ceiling. -/
  maxSteps : Option Nat
  /-- `ADD_CARRY_LIMIT` (00_scope.md R9, 93_implementation_defined.md I7): `ADD` sets carry exactly
  when its result is greater (40_alu.md R106). -/
  addCarryLimit : Int
  /-- `SUB_CARRY_LIMIT` (00_scope.md R9, 93_implementation_defined.md I7): `SUB` sets carry exactly
  when its result is less (40_alu.md R110). -/
  subCarryLimit : Int
  deriving DecidableEq, Repr

end Sys2Proof
end

