-- ==== Sys2Proof/Machine/Defaults.lean ====
section
/-! DEFINITION. The default of every implementation parameter (00_scope.md R8). -/

namespace Sys2Proof

/-- The defaults of 00_scope.md R8. The carry limits are the source's own numbers, normative and
unaudited (R9; assumption log 21). -/
def Params.default : Params :=
  { carryReset := false, extraTokens := .fault, jumpOperand := .literal, maxSteps := none
    addCarryLimit := 255, subCarryLimit := 0 }

end Sys2Proof
end

