-- ==== Sys2Proof/Syntax.lean ====
section
/-! DEFINITION. The instruction set as syntax: registers, operands, the nine opcodes and the blank
line (30_encoding.md R77), and the error kinds (60_exceptions.md R201-R204, R208, R209). -/

namespace Sys2Proof

/-- The four registers (10_state.md R20). -/
inductive Reg where
  | r1 | r2 | r3 | r4
  deriving DecidableEq, Repr

/-- What a value operand names (30_encoding.md R73): a register, or an integer literal of any size. -/
inductive Operand where
  | reg (r : Reg)
  | lit (v : Int)
  deriving DecidableEq, Repr

/-- The opcode names (30_encoding.md R77). -/
inductive Opcode where
  | mov | add | sub | mul | div | prn | jmp | jc | hlt
  deriving DecidableEq, Repr

/-- One decoded program line, one constructor per row of the opcode table. -/
inductive Instr where
  /-- `MOV dst, src` (40_alu.md R100). -/
  | mov (dst : Reg) (src : Operand)
  /-- `ADD dst, src` (40_alu.md R104). -/
  | add (dst : Reg) (src : Operand)
  /-- `SUB dst, src` (40_alu.md R108). -/
  | sub (dst : Reg) (src : Operand)
  /-- `MUL dst, src` (40_alu.md R112). -/
  | mul (dst : Reg) (src : Operand)
  /-- `DIV dst, src` (40_alu.md R115). -/
  | div (dst : Reg) (src : Operand)
  /-- `PRN reg` (41_output_and_halt.md R140). -/
  | prn (reg : Reg)
  /-- `JMP addr` (42_control_transfer.md R165). A register stands here only when
  `JUMP_OPERAND = resolve` (`Instr.wf`). -/
  | jmp (addr : Operand)
  /-- `JC addr` (42_control_transfer.md R169). A register stands here only when
  `JUMP_OPERAND = resolve` (`Instr.wf`). -/
  | jc (addr : Operand)
  /-- `HLT` (41_output_and_halt.md R145). -/
  | hlt
  /-- A line with no tokens (30_encoding.md R64, 42_control_transfer.md R163). -/
  | blank
  deriving DecidableEq, Repr

/-- An error kind with its detail (60_exceptions.md R200, R211). Every one is fatal to the run.
The details are the spec's decision D13. -/
inductive Cause where
  /-- Raised by decoding a `dst` or `reg` operand that names no register (60_exceptions.md R201);
  the detail is the token after one trailing comma is removed. -/
  | invalidRegister (name : Text)
  /-- Raised by decoding a `src` or `addr` operand that does not decode (60_exceptions.md R202);
  the detail is the token as written. -/
  | invalidOperand (token : Text)
  /-- Raised by decoding a line whose first token is no opcode name (60_exceptions.md R203);
  the detail is that token as written. -/
  | unknownInstruction (name : Text)
  /-- Raised by decoding a line with too few tokens, or too many when `EXTRA_TOKENS = fault`
  (60_exceptions.md R208); the detail is the whole line. -/
  | malformedInstruction (line : Text)
  /-- Raised by a taken `JMP` or `JC` to a negative target (60_exceptions.md R204, D11). -/
  | jumpTargetNegative (a : Int)
  /-- Raised by `DIV` when the resolved divisor is 0 (60_exceptions.md R209). -/
  | divisionByZero
  deriving DecidableEq, Repr

end Sys2Proof
end

