-- ==== Sys2Proof/WellFormed.lean ====
section
/-! DEFINITION. Which instructions exist under given parameters. -/

namespace Sys2Proof

/-- A line-number operand is an integer literal, or any value operand when `JUMP_OPERAND = resolve`
(30_encoding.md R75). -/
def Operand.wfAddr (p : Params) : Operand → Bool
  | .lit _ => true
  | .reg _ => decide (p.jumpOperand = .resolve)

/-- Every instruction exists under all parameters, except a jump through a register, which exists
only when `JUMP_OPERAND = resolve` (30_encoding.md R75, 42_control_transfer.md R176). -/
def Instr.wf (p : Params) : Instr → Bool
  | .mov _ _ => true
  | .add _ _ => true
  | .sub _ _ => true
  | .mul _ _ => true
  | .div _ _ => true
  | .prn _ => true
  | .jmp a => a.wfAddr p
  | .jc a => a.wfAddr p
  | .hlt => true
  | .blank => true

end Sys2Proof
end

