-- ==== Sys2Proof/Decode.lean ====
section
/-! DEFINITION. From text to instructions and back: line splitting, tokens, the operand decoders,
the decode procedure (30_encoding.md), and an encoder into the canonical spelling (R81). -/

namespace Sys2Proof

/-! ### Lines (30_encoding.md section 1) -/

/-- Line splitting at each line feed (30_encoding.md R60): `k` line feeds give `k + 1` lines. -/
def splitLines : Text → List Text
  | [] => [[]]
  | c :: cs =>
    if c = '\n' then [] :: splitLines cs
    else
      match splitLines cs with
      | [] => [[c]]
      | l :: ls => (c :: l) :: ls

/-- Entries joined with one line feed between consecutive ones and none at the end
(10_state.md R33). -/
def joinLines : List Text → Text
  | [] => []
  | [l] => l
  | l :: m :: ls => l ++ '\n' :: joinLines (m :: ls)

/-! ### Tokens -/

/-- Whitespace: tab, vertical tab, form feed, carriage return and space (30_encoding.md R62). -/
def isSpace (c : Char) : Bool :=
  c.toNat = 0x09 || c.toNat = 0x0B || c.toNat = 0x0C || c.toNat = 0x0D || c.toNat = 0x20

/-- A token in front of the others, dropped when it has no character. -/
def consToken : Text → List Text → List Text
  | [], ts => ts
  | c :: cs, ts => (c :: cs) :: ts

/-- The run of non-whitespace characters a text begins with, and the tokens after it. -/
def scan : Text → Text × List Text
  | [] => ([], [])
  | c :: cs =>
    if isSpace c then ([], consToken (scan cs).1 (scan cs).2)
    else (c :: (scan cs).1, (scan cs).2)

/-- The tokens of a line: its maximal non-empty runs of non-whitespace characters, in order
(30_encoding.md R63). -/
def tokens (line : Text) : List Text :=
  consToken (scan line).1 (scan line).2

/-! ### Opcode names -/

/-- ASCII case folding of one character (30_encoding.md R66, D6). -/
def upperChar (c : Char) : Char :=
  if 97 ≤ c.toNat && c.toNat ≤ 122 then Char.ofNat (c.toNat - 32) else c

/-- `ascii_upper` of 30_encoding.md R76. -/
def asciiUpper (t : Text) : Text := t.map upperChar

/-- The opcode names (30_encoding.md R77). -/
def Opcode.name : Opcode → Text
  | .mov => ['M', 'O', 'V']
  | .add => ['A', 'D', 'D']
  | .sub => ['S', 'U', 'B']
  | .mul => ['M', 'U', 'L']
  | .div => ['D', 'I', 'V']
  | .prn => ['P', 'R', 'N']
  | .jmp => ['J', 'M', 'P']
  | .jc => ['J', 'C']
  | .hlt => ['H', 'L', 'T']

/-- The fixed set of opcodes (00_scope.md R2). -/
def opcodes : List Opcode := [.mov, .add, .sub, .mul, .div, .prn, .jmp, .jc, .hlt]

/-- The opcode a first token selects, matched without regard to ASCII case (30_encoding.md R66). -/
def opcodeOf (tok : Text) : Option Opcode :=
  opcodes.find? fun op => op.name == asciiUpper tok

/-- The number of tokens an opcode's format requires, the opcode included (30_encoding.md R65). -/
def Opcode.arity : Opcode → Nat
  | .mov => 3
  | .add => 3
  | .sub => 3
  | .mul => 3
  | .div => 3
  | .prn => 2
  | .jmp => 2
  | .jc => 2
  | .hlt => 1

/-! ### Operand decoders (30_encoding.md section 3) -/

/-- The register names (30_encoding.md R69). -/
def Reg.name : Reg → Text
  | .r1 => ['R', '1']
  | .r2 => ['R', '2']
  | .r3 => ['R', '3']
  | .r4 => ['R', '4']

/-- The register a token names: an exact, case-sensitive match (30_encoding.md R70). -/
def regOf (tok : Text) : Option Reg :=
  [Reg.r1, Reg.r2, Reg.r3, Reg.r4].find? fun r => r.name == tok

/-- One trailing comma removed, if there is one (30_encoding.md R71). -/
def stripComma (tok : Text) : Text :=
  if tok.getLast? = some ',' then tok.dropLast else tok

/-- `regname`, the register-operand decoder of `dst` and `reg` (30_encoding.md R72). -/
def regname (tok : Text) : Except Cause Reg :=
  match regOf (stripComma tok) with
  | some r => .ok r
  | none => .error (.invalidRegister (stripComma tok))

/-- An ASCII digit (30_encoding.md R74). -/
def isDigit (c : Char) : Bool := 48 ≤ c.toNat && c.toNat ≤ 57

/-- The value of an ASCII digit. -/
def digitVal : Char → Nat
  | '1' => 1
  | '2' => 2
  | '3' => 3
  | '4' => 4
  | '5' => 5
  | '6' => 6
  | '7' => 7
  | '8' => 8
  | '9' => 9
  | _ => 0

/-- The number a string of digits spells in base 10, after the value `n` of the digits before it. -/
def digitsValue (n : Nat) : Text → Nat
  | [] => n
  | c :: cs => digitsValue (10 * n + digitVal c) cs

/-- One or more ASCII digits and nothing else, as a natural number. -/
def parseDigits (t : Text) : Option Nat :=
  if t ≠ [] ∧ t.all isDigit then some (digitsValue 0 t) else none

/-- The literal decoder: `-?[0-9]+` in base 10, with no bound (30_encoding.md R74). -/
def parseLit : Text → Option Int
  | '-' :: ds => (parseDigits ds).map fun n : Nat => -(n : Int)
  | t => (parseDigits t).map fun n : Nat => (n : Int)

/-- The value-operand decoder of `src`, less the register read, which execution does in the same
state (30_encoding.md R73, R76). -/
def valueOperand (tok : Text) : Except Cause Operand :=
  match regOf tok with
  | some r => .ok (.reg r)
  | none =>
    match parseLit tok with
    | some v => .ok (.lit v)
    | none => .error (.invalidOperand tok)

/-- `addr`, the line-number decoder of `JMP` and `JC` (30_encoding.md R75). -/
def addrOperand (p : Params) (tok : Text) : Except Cause Operand :=
  match p.jumpOperand with
  | .literal =>
    match parseLit tok with
    | some v => .ok (.lit v)
    | none => .error (.invalidOperand tok)
  | .resolve => valueOperand tok

/-! ### The decode procedure (30_encoding.md R76) -/

/-- A format `T3` line: `dst` is checked before `src` (60_exceptions.md R206). -/
def decodeT3 (mk : Reg → Operand → Instr) (dst src : Text) : Except Cause Instr :=
  match regname dst with
  | .error c => .error c
  | .ok d =>
    match valueOperand src with
    | .error c => .error c
    | .ok v => .ok (mk d v)

/-- A format `T2R` line. -/
def decodeT2R (mk : Reg → Instr) (reg : Text) : Except Cause Instr :=
  match regname reg with
  | .error c => .error c
  | .ok r => .ok (mk r)

/-- A format `T2A` line. -/
def decodeT2A (p : Params) (mk : Operand → Instr) (addr : Text) : Except Cause Instr :=
  match addrOperand p addr with
  | .error c => .error c
  | .ok a => .ok (mk a)

/-- The operands of an opcode, from the tokens after it, once their number has been checked.
The last arm is the shortage that the check has already refused. -/
def decodeOperands (p : Params) (line : Text) : Opcode → List Text → Except Cause Instr
  | .mov, d :: s :: _ => decodeT3 .mov d s
  | .add, d :: s :: _ => decodeT3 .add d s
  | .sub, d :: s :: _ => decodeT3 .sub d s
  | .mul, d :: s :: _ => decodeT3 .mul d s
  | .div, d :: s :: _ => decodeT3 .div d s
  | .prn, r :: _ => decodeT2R .prn r
  | .jmp, a :: _ => decodeT2A p .jmp a
  | .jc, a :: _ => decodeT2A p .jc a
  | .hlt, _ => .ok .hlt
  | _, _ => .error (.malformedInstruction line)

/-- `decode` of one line (30_encoding.md R76): total, and every rejection is by its error kind. -/
def decode (p : Params) (line : Text) : Except Cause Instr :=
  match tokens line with
  | [] => .ok .blank
  | t :: args =>
    match opcodeOf t with
    | none => .error (.unknownInstruction t)
    | some op =>
      if args.length + 1 < op.arity then .error (.malformedInstruction line)
      else if op.arity < args.length + 1 ∧ p.extraTokens = .fault then
        .error (.malformedInstruction line)
      else decodeOperands p line op args

/-! ### Decimal spelling and the encoder -/

/-- The ASCII digit of a number below 10. -/
def digitChar (n : Nat) : Char := Char.ofNat (48 + n)

/-- The base-10 digits of `n` in front of `acc`; the first argument bounds their number. -/
def digitsOf : Nat → Nat → Text → Text
  | 0, _, acc => acc
  | fuel + 1, n, acc =>
    if n < 10 then digitChar n :: acc else digitsOf fuel (n / 10) (digitChar (n % 10) :: acc)

/-- The shortest base-10 spelling of a natural number. -/
def decNat (n : Nat) : Text := digitsOf (n + 1) n []

/-- `dec`: the shortest base-10 spelling of an integer, with a leading `-` exactly when it is
negative (41_output_and_halt.md R141). -/
def dec : Int → Text
  | .ofNat n => decNat n
  | .negSucc n => '-' :: decNat (n + 1)

/-- The spelling of a value operand. -/
def Operand.text : Operand → Text
  | .reg r => r.name
  | .lit v => dec v

/-- The canonical spelling of a format `T3` line (30_encoding.md R81). -/
def encodeT3 (op : Opcode) (dst : Reg) (src : Operand) : Text :=
  op.name ++ ' ' :: (dst.name ++ ',' :: ' ' :: src.text)

/-- The canonical spelling of an opcode with one operand. -/
def encodeT2 (op : Opcode) (operand : Text) : Text := op.name ++ ' ' :: operand

/-- The line that spells an instruction canonically: the opcode in upper case, a space, the operands
separated by a comma and a space (30_encoding.md R81). -/
def encode : Instr → Text
  | .mov d s => encodeT3 .mov d s
  | .add d s => encodeT3 .add d s
  | .sub d s => encodeT3 .sub d s
  | .mul d s => encodeT3 .mul d s
  | .div d s => encodeT3 .div d s
  | .prn r => encodeT2 .prn r.name
  | .jmp a => encodeT2 .jmp a.text
  | .jc a => encodeT2 .jc a.text
  | .hlt => Opcode.hlt.name
  | .blank => []

/-! ### A line given as a number

The hardware has no binary instruction word (00_scope.md R7). The host of this package asks about
words, so a number stands for the characters of a line (assumption log 5). -/

/-- The `k` bytes of `w`, the least significant first, each as the character with that code. -/
def bytesText : Nat → Nat → Text
  | 0, _ => []
  | k + 1, w => Char.ofNat (w % 256) :: bytesText k (w / 256)

/-- The line a number of `nbits` bits stands for: its bytes up to the first line feed
(30_encoding.md R80). -/
def lineOfWord (nbits w : Nat) : Text :=
  (bytesText ((nbits + 7) / 8) w).takeWhile (· ≠ '\n')

/-- The instruction the decoder reads, under the default parameters, from the line whose characters
are the bytes of `w`. -/
def decodeTableWord (nbits w : Nat) : Option Instr :=
  match decode Params.default (lineOfWord nbits w) with
  | .ok i => some i
  | .error _ => none

end Sys2Proof
end

