-- ==== Sys2Proof/Machine/State.lean ====
section
/-! DEFINITION. The machine's state (10_state.md), its reset and load, the reasons a step can stop,
and the results of a run. -/

namespace Sys2Proof.Machine

/-- The register file: `R1` to `R4`, each an unbounded integer (10_state.md R20, R21). -/
structure RegFile where
  r1 : Int
  r2 : Int
  r3 : Int
  r4 : Int
  deriving DecidableEq, Repr

/-- The state of 10_state.md R39, with the program of 20_memory.md R40 and the parameters of
00_scope.md R8, which a run never changes (assumption log 1). -/
structure State where
  /-- `x`, the four registers (10_state.md R20). -/
  regs : RegFile
  /-- The carry flag, `true` for 1 (10_state.md R24). -/
  carry : Bool
  /-- The index of the next line to fetch (10_state.md R27). -/
  pc : Nat
  /-- The halted flag (10_state.md R30). -/
  halted : Bool
  /-- The output buffer, oldest entry first (10_state.md R32). -/
  out : List Text
  /-- `P`, the program's lines (20_memory.md R40). -/
  program : List Text
  /-- The parameters of the run (00_scope.md R8). -/
  params : Params
  deriving DecidableEq, Repr

/-- Why a step stops. The spec's run then ends in `Faulted` (42_control_transfer.md R172); the
failing line has written nothing, so the state before it is the state at the fault
(60_exceptions.md R207). -/
inductive Fault where
  /-- `LineError(line, kind, detail)` (60_exceptions.md R205, R211). `raise` makes it, for the
  decoder's four error kinds and for `JMP`, `JC` and `DIV`. Five kinds are the source's own;
  `jumpTargetNegative` is the spec's addition (R204) and is safe only for a claim that requires no
  fault (log 10); which kind a line with several errors reports is the spec's choice and unsafe to
  rest on (log 17). -/
  | lineError (line : Nat) (cause : Cause)
  deriving DecidableEq, Repr

/-- Why the model has no meaning for an instruction. -/
inductive Refusal where
  /-- Raised only by an arm of `exec` that is not modelled; safe. No arm is one, so no step answers
  it. -/
  | notModelled (mnemonic : String)
  deriving DecidableEq, Repr

/-- What the host receives when a run ends (42_control_transfer.md R172, 60_exceptions.md R215). -/
inductive RunResult where
  /-- `HLT` ran: the output text. -/
  | halted (text : Text)
  /-- The pc passed the last line: the output text. -/
  | exhausted (text : Text)
  /-- A line raised: the report. -/
  | faulted (report : Fault)
  /-- The step ceiling was reached: no end of the core's run (42_control_transfer.md R174). -/
  | outOfSteps
  /-- An instruction had no meaning: never the case in this model. -/
  | refused (why : Refusal)
  deriving DecidableEq, Repr

/-- Reset and load: the start of a run of a program text (10_state.md R35, 70_reset_and_hazards.md
R230). -/
def State.start (p : Params) (text : Text) : State :=
  { regs := { r1 := 0, r2 := 0, r3 := 0, r4 := 0 }
    carry := p.carryReset
    pc := 0
    halted := false
    out := []
    program := splitLines text
    params := p }

/-- The machine right after reset with the default parameters and no text supplied: the empty text,
which is one blank line (30_encoding.md R60; assumption log 4). -/
def State.reset : State := State.start Params.default []

end Sys2Proof.Machine
end

