-- ==== Sys2Proof/Machine/Ops.lean ====
section
/-! DEFINITION. The shared operations over registers, flag, pc, output and program, and the one way
an error is raised. -/

namespace Sys2Proof.Machine

/-- `x[r]` (00_scope.md R11). -/
def RegFile.read (x : RegFile) : Reg → Int
  | .r1 => x.r1
  | .r2 => x.r2
  | .r3 => x.r3
  | .r4 => x.r4

/-- `x[r] <- v` (00_scope.md R11). -/
def RegFile.write (x : RegFile) (r : Reg) (v : Int) : RegFile :=
  match r with
  | .r1 => { x with r1 := v }
  | .r2 => { x with r2 := v }
  | .r3 => { x with r3 := v }
  | .r4 => { x with r4 := v }

/-- The value of a register. -/
def State.reg (s : State) (r : Reg) : Int := s.regs.read r

/-- Write a register. -/
def State.setReg (s : State) (r : Reg) (v : Int) : State := { s with regs := s.regs.write r v }

/-- Write the carry flag. -/
def State.setCarry (s : State) (c : Bool) : State := { s with carry := c }

/-- Write the pc. -/
def State.setPc (s : State) (n : Nat) : State := { s with pc := n }

/-- Set the halted flag (41_output_and_halt.md R145). -/
def State.halt (s : State) : State := { s with halted := true }

/-- `Emit`: append one entry to the output buffer (00_scope.md R11, 10_state.md R32). -/
def State.emit (s : State) (entry : Text) : State := { s with out := s.out ++ [entry] }

/-- The advance of the run loop after a line that did not raise (42_control_transfer.md R161). -/
def State.advance (s : State) : State := s.setPc (s.pc + 1)

/-- Trap entry, the only kind there is (60_exceptions.md R205): the run ends in `Faulted` with the
1-based line number, the kind and the detail. No state is saved or written and no handler runs
(R207), and there is no return from it (R213). -/
def raise (c : Cause) (s : State) : Host.Outcome State Fault Refusal :=
  .fault (.lineError (s.pc + 1) c)

/-- A taken jump and the advance after it (42_control_transfer.md R166, R167): the jump writes
`a - 1` and the advance adds 1, so the next line is the one at index `a`, with no upper bound
(R171). A negative target raises (R168). -/
def jumpTo (a : Int) (s : State) : Host.Outcome State Fault Refusal :=
  if a < 0 then raise (.jumpTargetNegative a) s else .next (s.setPc a.toNat)

/-- `Fetch(pc)`, defined below the program's length (20_memory.md R40). -/
def State.fetch (s : State) : Option Text := s.program[s.pc]?

/-- `join(out)`, the output text of a run that ends normally (10_state.md R33). -/
def State.outputText (s : State) : Text := joinLines s.out

/-- A program with `line` at index `i`: the line there replaced, or blank lines added up to it.
Used to place a line from outside, never by a step. -/
def placeLine : List Text → Nat → Text → List Text
  | [], 0, line => [line]
  | _ :: ls, 0, line => line :: ls
  | [], i + 1, line => [] :: placeLine [] i line
  | l :: ls, i + 1, line => l :: placeLine ls i line

end Sys2Proof.Machine
end

