-- ==== Sys2Proof/Machine/Operands.lean ====
section
/-! DEFINITION. What a value operand reads, the arithmetic of the ALU and the spelling of output. -/

namespace Sys2Proof.Machine

/-- The value of a value operand in the state before the instruction writes (30_encoding.md R73,
40_alu.md R101). -/
def operandValue (o : Operand) (s : State) : Int :=
  match o with
  | .reg r => s.reg r
  | .lit v => v

/-- `floor_div`: division that rounds toward negative infinity (00_scope.md R11, 40_alu.md R116). -/
def floorDiv (a b : Int) : Int := Int.fdiv a b

/-- The entry `PRN` appends: name, the separator of 41_output_and_halt.md R142, value (R140). -/
def prnLine (r : Reg) (v : Int) : Text := r.name ++ ' ' :: '=' :: ' ' :: dec v

/-- The entry `HLT` appends: the 15 characters of 41_output_and_halt.md R147. -/
def haltMessage : Text :=
  ['P', 'r', 'o', 'g', 'r', 'a', 'm', ' ', 'h', 'a', 'l', 't', 'e', 'd', '.']

end Sys2Proof.Machine
end

