-- ==== Sys2Proof/Machine/Flags.lean ====
section
/-! DEFINITION. The carry flag's two writers (10_state.md R24), each against its limit, which is a
parameter of the run (00_scope.md R8, R9). -/

namespace Sys2Proof.Machine

/-- Carry after `ADD`: the whole result against `ADD_CARRY_LIMIT` (40_alu.md R106). -/
def addCarry (p : Params) (result : Int) : Bool := decide (p.addCarryLimit < result)

/-- Carry after `SUB`: the whole result against `SUB_CARRY_LIMIT` (40_alu.md R110). -/
def subCarry (p : Params) (result : Int) : Bool := decide (result < p.subCarryLimit)

end Sys2Proof.Machine
end

