-- ==== Sys2Proof/Machine/Alu.lean ====
section
/-! DEFINITION. The five ALU instructions (40_alu.md). Each reads its operands before it writes
(R101), computes exactly (R102), and ends with the advance (42_control_transfer.md R161). -/

namespace Sys2Proof.Machine

/-- `MOV` (40_alu.md R100): carry unchanged. -/
def execMov (dst : Reg) (src : Operand) (s : State) : Host.Outcome State Fault Refusal :=
  .next (s.setReg dst (operandValue src s)).advance

/-- `ADD` (40_alu.md R104, R106). -/
def execAdd (dst : Reg) (src : Operand) (s : State) : Host.Outcome State Fault Refusal :=
  let r := s.reg dst + operandValue src s
  .next ((s.setReg dst r).setCarry (addCarry s.params r)).advance

/-- `SUB` (40_alu.md R108, R110). -/
def execSub (dst : Reg) (src : Operand) (s : State) : Host.Outcome State Fault Refusal :=
  let r := s.reg dst - operandValue src s
  .next ((s.setReg dst r).setCarry (subCarry s.params r)).advance

/-- `MUL` (40_alu.md R112, R113): carry unchanged. -/
def execMul (dst : Reg) (src : Operand) (s : State) : Host.Outcome State Fault Refusal :=
  .next (s.setReg dst (s.reg dst * operandValue src s)).advance

/-- `DIV` (40_alu.md R115-R117): carry unchanged, and a divisor of 0 raises. -/
def execDiv (dst : Reg) (src : Operand) (s : State) : Host.Outcome State Fault Refusal :=
  if operandValue src s = 0 then raise .divisionByZero s
  else .next (s.setReg dst (floorDiv (s.reg dst) (operandValue src s))).advance

end Sys2Proof.Machine
end

