-- ==== Sys2Proof/Machine/Control.lean ====
section
/-! DEFINITION. The jump controller and the blank line (42_control_transfer.md). -/

namespace Sys2Proof.Machine

/-- `JMP` (42_control_transfer.md R165). -/
def execJmp (addr : Operand) (s : State) : Host.Outcome State Fault Refusal :=
  jumpTo (operandValue addr s) s

/-- `JC` (42_control_transfer.md R169): when carry is 0 only the advance, whatever the operand's
value (R170). -/
def execJc (addr : Operand) (s : State) : Host.Outcome State Fault Refusal :=
  if s.carry then jumpTo (operandValue addr s) s else .next s.advance

/-- The blank line (42_control_transfer.md R163). -/
def execBlank (s : State) : Host.Outcome State Fault Refusal :=
  .next s.advance

end Sys2Proof.Machine
end

