-- ==== Sys2Proof/Machine/Output.lean ====
section
/-! DEFINITION. The two instructions that write the output buffer (41_output_and_halt.md). -/

namespace Sys2Proof.Machine

/-- `PRN` (41_output_and_halt.md R140). -/
def execPrn (reg : Reg) (s : State) : Host.Outcome State Fault Refusal :=
  .next (s.emit (prnLine reg (s.reg reg))).advance

/-- `HLT` (41_output_and_halt.md R145): the pc still advances (R146). -/
def execHlt (s : State) : Host.Outcome State Fault Refusal :=
  .next (s.halt.emit haltMessage).advance

end Sys2Proof.Machine
end

