-- ==== Sys2Proof/Machine/Sequencer.lean ====
section
/-! DEFINITION. The run loop (42_control_transfer.md R160): its tests, the dispatch of one line, and
whole runs. -/

namespace Sys2Proof.Machine

/-- The dispatch of one line (30_encoding.md R76). While halted it has no effect, whatever the line
holds (10_state.md R31), and no advance follows, since the loop never dispatches then. -/
def dispatch (line : Text) (s : State) : Host.Outcome State Fault Refusal :=
  if s.halted then .next s
  else
    match decode s.params line with
    | .error c => raise c s
    | .ok i => exec i s

/-- The loop tests of 42_control_transfer.md R160, `halted` before the pc: the result of a run that
has ended normally, or none while it is running (R172, R173). -/
def State.ended (s : State) : Option RunResult :=
  if s.halted then some (.halted s.outputText)
  else if s.program.length ≤ s.pc then some (.exhausted s.outputText)
  else none

/-- One pass of the loop: fetch, dispatch, advance (42_control_transfer.md R164). A run that has
ended stays as it is (R173; assumption log 2). -/
def loopStep (s : State) : Host.Outcome State Fault Refusal :=
  if s.halted then .next s
  else
    match s.fetch with
    | none => .next s
    | some line => dispatch line s

/-- `k` passes of the loop, stopping at the first fault. -/
def runSteps : Nat → State → Host.Outcome State Fault Refusal
  | 0, s => .next s
  | k + 1, s =>
    match loopStep s with
    | .next t => runSteps k t
    | .fault f => .fault f
    | .refused r => .refused r

/-- The run loop under a ceiling of `fuel` steps, the tests in the order of 42_control_transfer.md
R160. Reaching the ceiling is `outOfSteps` and nothing else (R174). -/
def runFor : Nat → State → RunResult
  | 0, s =>
    match s.ended with
    | some r => r
    | none => .outOfSteps
  | fuel + 1, s =>
    match s.ended with
    | some r => r
    | none =>
      match loopStep s with
      | .next t => runFor fuel t
      | .fault f => .faulted f
      | .refused r => .refused r

/-- `run(text)` with `MAX_STEPS = fuel` (42_control_transfer.md R160, 60_exceptions.md R214). -/
def runText (p : Params) (fuel : Nat) (text : Text) : RunResult :=
  runFor fuel (State.start p text)

/-- The run of a text under its parameters has the result `r`: with a ceiling, what `runText`
answers under it; without one, what it answers under some ceiling that suffices. A run that never
ends has no result (42_control_transfer.md R174, 60_exceptions.md R226). -/
def RunsTo (p : Params) (text : Text) (r : RunResult) : Prop :=
  match p.maxSteps with
  | some k => runText p k text = r
  | none => r ≠ .outOfSteps ∧ ∃ k, runText p k text = r

/-- Place a line where the next pass of the loop fetches it, and let the loop run: the line stands
at the pc and the core is not halted (assumption log 4). -/
def State.withLine (s : State) (line : Text) : State :=
  { s with halted := false, program := placeLine s.program s.pc line }

end Sys2Proof.Machine
end

