-- ==== Sys2Proof/Machine/Step.lean ====
section
/-! DEFINITION. One step of the machine, and the placing of a line where the step fetches. -/

namespace Sys2Proof.Machine

/-- One step of the core (42_control_transfer.md R164). -/
def step (s : State) : Host.Outcome State Fault Refusal := loopStep s

/-- `s` with the line a number stands for (assumption log 5) where the next step fetches. -/
def State.withFetchWord (s : State) (nbits w : Nat) : State := s.withLine (lineOfWord nbits w)

end Sys2Proof.Machine
end

