-- ==== Sys2Proof/Safety.lean ====
section
/-! DEFINITION. What counts as a well-formed machine and a safe run, in the terms claims use, and the
spec's own descriptions of tokens and values that claims compare the functions with. -/

namespace Sys2Proof.Machine

/-- The core is running: the loop fetches another line (42_control_transfer.md R160, R173). -/
def State.Running (s : State) : Prop := s.halted = false ∧ s.pc < s.program.length

/-- An output entry that `PRN` makes (41_output_and_halt.md R140). -/
def IsPrnLine (entry : Text) : Prop := ∃ r v, entry = prnLine r v

/-- What the output buffer holds (10_state.md R32, 41_output_and_halt.md R147): entries of `PRN`, and
after them exactly one halt message when the core is halted and none when it is not. -/
def State.OutputOk (s : State) : Prop :=
  if s.halted then ∃ es, s.out = es ++ [haltMessage] ∧ ∀ e ∈ es, IsPrnLine e
  else ∀ e ∈ s.out, IsPrnLine e

/-- The invariant of the machine: a program has a line (42_control_transfer.md R173), no line holds a
line feed (00_scope.md R13), the output buffer is as `PRN` and `HLT` leave it, and a halted core has
advanced past its `HLT` (41_output_and_halt.md R146). -/
structure State.Inv (s : State) : Prop where
  program_ne : s.program ≠ []
  program_lines : ∀ l ∈ s.program, '\n' ∉ l
  output_ok : s.OutputOk
  halted_pc : s.halted = true → 0 < s.pc

/-- No ceiling makes the run of a text end in `Faulted`: the safety a claim about a program asks
for (60_exceptions.md R200). -/
def FaultFree (p : Params) (text : Text) : Prop := ∀ k f, runText p k text ≠ .faulted f

/-- An outcome with the carry flag of its next state cleared: what it says apart from carry. -/
def eraseCarry : Host.Outcome State Fault Refusal → Host.Outcome State Fault Refusal
  | .next s => .next (s.setCarry false)
  | .fault f => .fault f
  | .refused r => .refused r

/-- An outcome with the output buffer of its next state emptied: what it says apart from output. -/
def eraseOut : Host.Outcome State Fault Refusal → Host.Outcome State Fault Refusal
  | .next s => .next { s with out := [] }
  | .fault f => .fault f
  | .refused r => .refused r

/-- The tokens of a line as 30_encoding.md R63 describes them: maximal non-empty runs of
non-whitespace characters, in order. A run is maximal when it ends at the end of the line or at a
whitespace character. -/
inductive Tokenized : Text → List Text → Prop
  | nil (ws : Text) : (∀ c ∈ ws, isSpace c = true) → Tokenized ws []
  | cons (ws tok rest : Text) (ts : List Text) :
      (∀ c ∈ ws, isSpace c = true) → tok ≠ [] → (∀ c ∈ tok, isSpace c = false) →
      (∀ c ∈ rest.head?, isSpace c = true) → Tokenized rest ts →
      Tokenized (ws ++ tok ++ rest) (tok :: ts)

end Sys2Proof.Machine
end

