-- ==== Sys2Proof/Certificates/Slice0/Obligations.lean ====
section
/-! DEFINITION. The statements about the ALI-4R core, from the numbered rules of the spec. -/

open Sys2Proof Sys2Proof.Machine

/-! ### Reset, load and the host's result -/

/-- 70_reset_and_hazards.md R231: execution begins at line 1, at index 0, whatever the text and the
parameters; that line 1 is the text before the first line feed is 30_encoding.md R60, decision D4
(log 13). -/
def Obligations.EntryPointIsLineOne : Prop :=
  ∀ (p : Params) (text : Text),
    (State.start p text).pc = 0 ∧
    (State.start p text).fetch = some (text.takeWhile (· ≠ '\n'))

/-- 10_state.md R35, whose register values are its own inference and whose carry value is decision D3
(assumption logs 6 and 7); that the reset state carries the empty text is the model's choice
(log 4). The defaults are those of 00_scope.md R8 (logs 6, 8, 11, 12 and 21). -/
def Obligations.ResetValues : Prop :=
  (∀ (p : Params) (text : Text),
    (∀ r, (State.start p text).reg r = 0) ∧
    (State.start p text).carry = p.carryReset ∧
    (State.start p text).pc = 0 ∧
    (State.start p text).halted = false ∧
    (State.start p text).out = [] ∧
    (State.start p text).program = splitLines text ∧
    (State.start p text).params = p) ∧
  Params.default =
    { carryReset := false, extraTokens := .fault, jumpOperand := .literal, maxSteps := none
      addCarryLimit := 255, subCarryLimit := 0 } ∧
  State.reset = State.start Params.default []

/-- 30_encoding.md R60 with decision D4 (log 13): the lines are the text cut at every line feed. -/
def Obligations.LinesSplitAtLineFeeds : Prop :=
  ∀ text : Text,
    (splitLines text).length = text.count '\n' + 1 ∧
    (∀ l ∈ splitLines text, '\n' ∉ l) ∧
    joinLines (splitLines text) = text

/-- R33: the result of a run that ends normally. -/
def Obligations.RunResultJoinsOutput : Prop :=
  ∀ s : State,
    (s.halted = true → ∀ k, runFor k s = .halted s.outputText) ∧
    (s.halted = false → s.program.length ≤ s.pc → ∀ k, runFor k s = .exhausted s.outputText) ∧
    (s.out = [] → s.outputText = []) ∧
    (∀ e es, s.out = e :: es → s.outputText = e ++ es.flatMap (fun x => '\n' :: x))

/-! ### Decoding -/

/-- R63: the tokenizer finds the maximal non-empty runs of non-whitespace characters, and a comma
does not separate tokens. -/
def Obligations.TokensAreMaximalRuns : Prop :=
  (∀ (line : Text) (ts : List Text), tokens line = ts ↔ Tokenized line ts) ∧
  isSpace ',' = false

/-- R64: a line with no tokens, which is a line of whitespace only, is blank, and its step is the advance alone
(42_control_transfer.md R163). -/
def Obligations.BlankLineIsNoOp : Prop :=
  (∀ (p : Params) (line : Text), decode p line = .ok .blank ↔ tokens line = []) ∧
  (∀ line : Text, tokens line = [] ↔ ∀ c ∈ line, isSpace c = true) ∧
  (∀ s : State, exec .blank s = .next { s with pc := s.pc + 1 }) ∧
  (∀ (s : State) (line : Text), s.halted = false → s.fetch = some line →
    (∀ c ∈ line, isSpace c = true) → step s = .next { s with pc := s.pc + 1 })

/-- 30_encoding.md R62, decision D5 (log 14). -/
def Obligations.WhitespaceIsFiveCharacters : Prop :=
  ∀ c : Char, isSpace c = true ↔
    c = Char.ofNat 0x09 ∨ c = Char.ofNat 0x0B ∨ c = Char.ofNat 0x0C ∨ c = Char.ofNat 0x0D ∨
      c = Char.ofNat 0x20

/-- 30_encoding.md R61: whitespace at the ends of a line has no effect on what it decodes to. The
detail of `MalformedInstruction` is the line as written, its whitespace kept (60_exceptions.md R208,
decision D13, log 18), so it alone names the longer line. -/
def Obligations.LineEdgeWhitespaceIgnored : Prop :=
  ∀ (p : Params) (a line b : Text),
    (∀ c ∈ a, isSpace c = true) → (∀ c ∈ b, isSpace c = true) →
    decode p (a ++ line ++ b) =
      match decode p line with
      | .error (.malformedInstruction _) => .error (.malformedInstruction (a ++ line ++ b))
      | r => r

/-- R78: a first token that is none of the nine names, whatever its case, raises
`UnknownInstruction` with that token; the forms the rule lists are among them. -/
def Obligations.UnknownOpcodeRaises : Prop :=
  (∀ (p : Params) (line t : Text) (args : List Text), tokens line = t :: args →
    (decode p line = .error (.unknownInstruction t) ↔
      asciiUpper t ∉ ["MOV".toList, "ADD".toList, "SUB".toList, "MUL".toList, "DIV".toList,
        "PRN".toList, "JMP".toList, "JC".toList, "HLT".toList])) ∧
  (∀ p : Params,
    decode p "; note".toList = .error (.unknownInstruction ";".toList) ∧
    decode p "# note".toList = .error (.unknownInstruction "#".toList) ∧
    decode p "loop:".toList = .error (.unknownInstruction "loop:".toList) ∧
    decode p ".data".toList = .error (.unknownInstruction ".data".toList) ∧
    decode p "MOVR1, 5".toList = .error (.unknownInstruction "MOVR1,".toList))

/-- 30_encoding.md R66, decision D6 (log 15): the case of the opcode's ASCII letters is ignored. The
fold goes character by character, takes each ASCII lower-case letter to its upper case, and leaves
every other character. -/
def Obligations.OpcodeCaseIgnored : Prop :=
  (∀ a b : Text, asciiUpper (a ++ b) = asciiUpper a ++ asciiUpper b) ∧
  ("abcdefghijklmnopqrstuvwxyz".toList.map fun c => asciiUpper [c]) =
    ("ABCDEFGHIJKLMNOPQRSTUVWXYZ".toList.map fun c => [c]) ∧
  (∀ c : Char, c ∉ "abcdefghijklmnopqrstuvwxyz".toList → asciiUpper [c] = [c]) ∧
  ∀ (p : Params) (line line' t t' : Text) (args : List Text),
    tokens line = t :: args → tokens line' = t' :: args → asciiUpper t = asciiUpper t' →
    ∀ i, decode p line = .ok i ↔ decode p line' = .ok i

/-- 30_encoding.md R65 and R67, decision D8 (log 11): too few tokens, too many under each value of
`EXTRA_TOKENS`. -/
def Obligations.TokenCountDecides : Prop :=
  opcodes.map Opcode.arity = [3, 3, 3, 3, 3, 2, 2, 2, 1] ∧
  ∀ (p : Params) (line t : Text) (args : List Text) (op : Opcode),
    tokens line = t :: args → asciiUpper t = op.name →
    (args.length + 1 < op.arity → decode p line = .error (.malformedInstruction line)) ∧
    (op.arity < args.length + 1 → p.extraTokens = .fault →
      decode p line = .error (.malformedInstruction line)) ∧
    (op.arity ≤ args.length + 1 → p.extraTokens = .ignore →
      ∀ line', tokens line' = t :: args.take (op.arity - 1) → decode p line = decode p line')

/-- 30_encoding.md R68 and R71: the comma before whitespace is optional, and a comma alone never
separates the operands. -/
def Obligations.CommaIsOptional : Prop :=
  ∀ (p : Params) (op : Opcode) (d : Reg) (src : Operand), op.arity = 3 →
    decode p (op.name ++ ' ' :: (d.name ++ ' ' :: src.text)) =
      decode p (op.name ++ ' ' :: (d.name ++ ',' :: ' ' :: src.text)) ∧
    decode p (op.name ++ ' ' :: (d.name ++ ',' :: src.text)) =
      .error (.malformedInstruction (op.name ++ ' ' :: (d.name ++ ',' :: src.text)))

/-- R69 and R70: the four names, matched character for character. -/
def Obligations.RegisterNamesAreExact : Prop :=
  [Reg.r1, Reg.r2, Reg.r3, Reg.r4].map Reg.name =
    ["R1".toList, "R2".toList, "R3".toList, "R4".toList] ∧
  (∀ (tok : Text) (r : Reg), regOf tok = some r ↔ tok = r.name) ∧
  (∀ tok ∈ ["r1".toList, "R01".toList, "R1 ".toList, "R5".toList, "R0".toList], regOf tok = none)

/-- 30_encoding.md R71 and R72, details by decision D13 (log 18): one trailing comma is removed from
a register operand, and no more. -/
def Obligations.RegisterOperandStripsOneComma : Prop :=
  (∀ (tok : Text) (r : Reg), regname tok = .ok r ↔ tok = r.name ∨ tok = r.name ++ [',']) ∧
  (∀ tok : Text, (∀ r : Reg, tok ≠ r.name ∧ tok ≠ r.name ++ [',']) →
    (∀ n, tok = n ++ [','] → regname tok = .error (.invalidRegister n)) ∧
    ((∀ n, tok ≠ n ++ [',']) → regname tok = .error (.invalidRegister tok)))

/-- R73: the operand resolver. -/
def Obligations.ValueOperandResolves : Prop :=
  (∀ (r : Reg) (s : State), valueOperand r.name = .ok (.reg r) ∧
    operandValue (.reg r) s = s.reg r) ∧
  (∀ (tok : Text) (v : Int) (s : State), (∀ r : Reg, tok ≠ r.name) → parseLit tok = some v →
    valueOperand tok = .ok (.lit v) ∧ operandValue (.lit v) s = v) ∧
  (∀ tok : Text, (∀ r : Reg, tok ≠ r.name) → parseLit tok = none →
    valueOperand tok = .error (.invalidOperand tok)) ∧
  valueOperand "R2,".toList = .error (.invalidOperand "R2,".toList) ∧
  valueOperand "r2".toList = .error (.invalidOperand "r2".toList)

/-- 30_encoding.md R74, decision D7 (log 16): a literal is an optional minus sign and one or more
ASCII digits, and its value is what the digits spell in base 10, of any size. -/
def Obligations.LiteralIsSignedDecimal : Prop :=
  ∀ (tok : Text) (v : Int), parseLit tok = some v ↔
    ∃ ds : Text, ds ≠ [] ∧ (∀ c ∈ ds, '0' ≤ c ∧ c ≤ '9') ∧
      ((tok = ds ∧ v = (Nat.ofDigits 10 (ds.reverse.map fun c => c.toNat - 48) : Nat)) ∨
       (tok = '-' :: ds ∧ v = -((Nat.ofDigits 10 (ds.reverse.map fun c => c.toNat - 48) : Nat) : Int)))

/-- 30_encoding.md R75, decision D9 (log 12): the operand of `JMP` and `JC` under each value of
`JUMP_OPERAND`. -/
def Obligations.JumpOperandForm : Prop :=
  ∀ (p : Params) (tok : Text),
    (p.jumpOperand = .resolve → addrOperand p tok = valueOperand tok) ∧
    (p.jumpOperand = .literal → ∀ v, parseLit tok = some v → addrOperand p tok = .ok (.lit v)) ∧
    (p.jumpOperand = .literal → parseLit tok = none →
      addrOperand p tok = .error (.invalidOperand tok)) ∧
    (p.jumpOperand = .literal → ∀ r : Reg, tok = r.name →
      addrOperand p tok = .error (.invalidOperand tok))

/-- 30_encoding.md R76: what a line of a three-token opcode decodes to is what its operand decoders
give, whatever spelling of `dst` and `src` they accept. By 60_exceptions.md R206, decision D12
(log 17), of a bad `dst` and a bad `src`, the `dst` is reported, and a bad `src` is reported before
any divisor is looked at. -/
def Obligations.OperandErrorsInOrder : Prop :=
  ∀ (p : Params) (line t dst src : Text) (op : Opcode), op.arity = 3 →
    tokens line = [t, dst, src] → asciiUpper t = op.name →
    (∀ c, regname dst = .error c → decode p line = .error c) ∧
    (∀ d c, regname dst = .ok d → valueOperand src = .error c → decode p line = .error c) ∧
    (∀ d v, regname dst = .ok d → valueOperand src = .ok v →
      (op = .mov → decode p line = .ok (.mov d v)) ∧
      (op = .add → decode p line = .ok (.add d v)) ∧
      (op = .sub → decode p line = .ok (.sub d v)) ∧
      (op = .mul → decode p line = .ok (.mul d v)) ∧
      (op = .div → decode p line = .ok (.div d v)))

/-- 30_encoding.md R76: a line of `PRN` with two tokens decodes to what the register decoder gives
for the second, and a line of `JMP` or `JC` with two tokens to what the line-number decoder gives;
`HLT` alone decodes to `HLT`. -/
def Obligations.OneOperandLinesDecode : Prop :=
  ∀ (p : Params) (line t : Text),
    (∀ u, tokens line = [t, u] → asciiUpper t = Opcode.prn.name →
      (∀ r, regname u = .ok r → decode p line = .ok (.prn r)) ∧
      (∀ c, regname u = .error c → decode p line = .error c)) ∧
    (∀ u, tokens line = [t, u] → asciiUpper t = Opcode.jmp.name →
      (∀ a, addrOperand p u = .ok a → decode p line = .ok (.jmp a)) ∧
      (∀ c, addrOperand p u = .error c → decode p line = .error c)) ∧
    (∀ u, tokens line = [t, u] → asciiUpper t = Opcode.jc.name →
      (∀ a, addrOperand p u = .ok a → decode p line = .ok (.jc a)) ∧
      (∀ c, addrOperand p u = .error c → decode p line = .error c)) ∧
    (tokens line = [t] → asciiUpper t = Opcode.hlt.name → decode p line = .ok .hlt)

/-- 42_control_transfer.md R170, decision D10 (log 23): the operand of a `JC` is decoded whether or
not the jump is taken, so one that does not decode raises `InvalidOperand` at the line whatever carry
is, and the run ends there. -/
def Obligations.JcOperandDecodedWhateverCarry : Prop :=
  ∀ (s : State) (line t u : Text) (c : Bool), s.halted = false → s.fetch = some line →
    tokens line = [t, u] → asciiUpper t = Opcode.jc.name →
    (∀ e, addrOperand s.params u = .error e → e = .invalidOperand u ∧
      step { s with carry := c } = .fault (.lineError (s.pc + 1) (.invalidOperand u)) ∧
      ∀ k, runFor (k + 1) { s with carry := c } =
        .faulted (.lineError (s.pc + 1) (.invalidOperand u))) ∧
    (∀ a, addrOperand s.params u = .ok a →
      step { s with carry := c } = exec (.jc a) { s with carry := c })

/-- 30_encoding.md R76 and R81: decoding the canonical spelling of any instruction that exists under
the parameters gives that instruction, every operand at every value. -/
def Obligations.DecodeInvertsEncode : Prop :=
  ∀ (p : Params) (i : Instr), i.wf p = true → decode p (encode i) = .ok i

/-- 30_encoding.md R75: the decoder answers only instructions that exist under the parameters. -/
def Obligations.DecodedInstructionsAreWellFormed : Prop :=
  ∀ (p : Params) (line : Text) (i : Instr), decode p line = .ok i → i.wf p = true

/-- 60_exceptions.md R201, R202, R203 and R208, details by decision D13 (log 18): a line that does
not decode reports one of four kinds, with a detail found in the line. -/
def Obligations.DecoderReportsItsFourKinds : Prop :=
  ∀ (p : Params) (line : Text) (c : Cause), decode p line = .error c →
    (∃ t args, tokens line = t :: args ∧ c = .unknownInstruction t) ∨
    c = .malformedInstruction line ∨
    (∃ n, c = .invalidRegister n ∧ (n ∈ tokens line ∨ n ++ [','] ∈ tokens line)) ∨
    (∃ tok, c = .invalidOperand tok ∧ tok ∈ tokens line)

/-- Lines written out from 30_encoding.md R65 to R81, one or more of every format. -/
def Obligations.WrittenOutLinesDecode : Prop :=
  decode Params.default "MOV R1, 250".toList = .ok (.mov .r1 (.lit 250)) ∧
  decode Params.default "ADD R1, R2".toList = .ok (.add .r1 (.reg .r2)) ∧
  decode Params.default "sub R3 -007".toList = .ok (.sub .r3 (.lit (-7))) ∧
  decode Params.default "MUL R4, 2".toList = .ok (.mul .r4 (.lit 2)) ∧
  decode Params.default "DIV R2, R2".toList = .ok (.div .r2 (.reg .r2)) ∧
  decode Params.default "PRN R1,".toList = .ok (.prn .r1) ∧
  decode Params.default "JMP 4".toList = .ok (.jmp (.lit 4)) ∧
  decode Params.default "JC -1".toList = .ok (.jc (.lit (-1))) ∧
  decode Params.default "HLT".toList = .ok .hlt ∧
  decode Params.default "".toList = .ok .blank

/-! ### ALU -/

/-- 40_alu.md R100: `MOV` completes, stores the operand's value and leaves everything else. -/
def Obligations.MovCopiesValue : Prop :=
  ∀ (d : Reg) (src : Operand) (s : State), ∃ t, exec (.mov d src) s = .next t ∧
    t.reg d = operandValue src s ∧
    (∀ r, r ≠ d → t.reg r = s.reg r) ∧ t.carry = s.carry ∧ t.pc = s.pc + 1 ∧
    t.halted = s.halted ∧ t.out = s.out ∧ t.program = s.program ∧ t.params = s.params

/-- R106: `ADD` completes, stores the exact sum, and carry is 1 exactly when it exceeds
`ADD_CARRY_LIMIT`, a parameter that is 255 by default (00_scope.md R8, R9; log 21). -/
def Obligations.AddStoresSumAndCarry : Prop :=
  Params.default.addCarryLimit = 255 ∧
  ∀ (d : Reg) (src : Operand) (s : State), ∃ t, exec (.add d src) s = .next t ∧
    t.reg d = s.reg d + operandValue src s ∧
    (t.carry = true ↔ s.params.addCarryLimit < t.reg d) ∧ t.pc = s.pc + 1

/-- R110: `SUB` completes, stores the exact difference, and carry is 1 exactly when it is less than
`SUB_CARRY_LIMIT`, a parameter that is 0 by default (00_scope.md R8, R9; log 21). -/
def Obligations.SubStoresDifferenceAndCarry : Prop :=
  Params.default.subCarryLimit = 0 ∧
  ∀ (d : Reg) (src : Operand) (s : State), ∃ t, exec (.sub d src) s = .next t ∧
    t.reg d = s.reg d - operandValue src s ∧
    (t.carry = true ↔ t.reg d < s.params.subCarryLimit) ∧ t.pc = s.pc + 1

/-- R113: `MUL` completes and stores the exact product, of any size; carry is unchanged. -/
def Obligations.MulStoresExactProduct : Prop :=
  ∀ (d : Reg) (src : Operand) (s : State), ∃ t, exec (.mul d src) s = .next t ∧
    t.reg d = s.reg d * operandValue src s ∧
    t.carry = s.carry ∧ t.pc = s.pc + 1

/-- 40_alu.md R115 and R116 with 00_scope.md R11: for a divisor other than 0, `DIV` completes with
the integer `q` such that `q ≤ a / b < q + 1` in exact rationals; carry is unchanged. The table of
R116 is among the instances. -/
def Obligations.DivRoundsTowardNegativeInfinity : Prop :=
  (∀ (d : Reg) (src : Operand) (s : State), operandValue src s ≠ 0 →
    ∃ t, exec (.div d src) s = .next t ∧
      (t.reg d : ℚ) ≤ (s.reg d : ℚ) / (operandValue src s : ℚ) ∧
      (s.reg d : ℚ) / (operandValue src s : ℚ) < (t.reg d : ℚ) + 1 ∧
      t.carry = s.carry ∧ t.pc = s.pc + 1) ∧
  ([(7, 2), (-7, 2), (7, -2), (-7, -2), (6, 3), (-6, 3), (5, 7), (-5, 7), (5, -7), (-5, -7),
    (0, -5)].map fun ab : Int × Int => floorDiv ab.1 ab.2) = [3, -4, -4, 3, 2, -2, 0, -1, -1, 0, 0]

/-- R117: a divisor of 0, however it is spelled, raises `DivisionByZero`, and a run that reaches the
line ends in `Faulted` there. -/
def Obligations.DivByZeroRaises : Prop :=
  (∀ (d : Reg) (src : Operand) (s : State), operandValue src s = 0 →
    exec (.div d src) s = .fault (.lineError (s.pc + 1) .divisionByZero)) ∧
  (∀ (d : Reg) (src : Operand) (s : State) (line : Text) (k : Nat),
    operandValue src s = 0 → s.halted = false → s.fetch = some line →
    decode s.params line = .ok (.div d src) →
    runFor (k + 1) s = .faulted (.lineError (s.pc + 1) .divisionByZero))

/-- 40_alu.md R101, with the corner cases of R104, R108, R112 and R115: when the source is the
destination, both operands are its old value. `SUB` gives carry 0 unless `SUB_CARRY_LIMIT`, by
default 0, is above 0. -/
def Obligations.SourceMayBeDestination : Prop :=
  ∀ (d : Reg) (s : State),
    (exec (.mov d (.reg d)) s = .next { s with pc := s.pc + 1 }) ∧
    (∃ t, exec (.add d (.reg d)) s = .next t ∧ t.reg d = 2 * s.reg d) ∧
    (∃ t, exec (.sub d (.reg d)) s = .next t ∧ t.reg d = 0 ∧
      (t.carry = true ↔ 0 < s.params.subCarryLimit)) ∧
    (∃ t, exec (.mul d (.reg d)) s = .next t ∧ t.reg d = s.reg d ^ 2) ∧
    (s.reg d ≠ 0 → ∃ t, exec (.div d (.reg d)) s = .next t ∧ t.reg d = 1)

/-- 40_alu.md R120 and 10_state.md R25: the flags of the family, and the frame: nothing else than `x[dst]`, the flag of
`ADD` and `SUB`, and the pc changes. -/
def Obligations.AluFrame : Prop :=
  ∀ (d : Reg) (src : Operand) (s t : State) (i : Instr),
    i ∈ [Instr.mov d src, .add d src, .sub d src, .mul d src, .div d src] → exec i s = .next t →
    (∀ r, r ≠ d → t.reg r = s.reg r) ∧
    t.carry = (if i = .add d src then decide (s.params.addCarryLimit < t.reg d)
      else if i = .sub d src then decide (t.reg d < s.params.subCarryLimit) else s.carry) ∧
    t.pc = s.pc + 1 ∧ t.halted = s.halted ∧ t.out = s.out ∧ t.program = s.program ∧
    t.params = s.params

/-! ### Output and halt -/

/-- R142: the entry of `PRN` is the register's name, the three characters of the separator and the
value, with no line feed; nothing but the output and the pc changes. -/
def Obligations.PrnAppendsOneEntry : Prop :=
  ∀ (r : Reg) (s : State), ∃ entry : Text,
    exec (.prn r) s = .next { s with out := s.out ++ [entry], pc := s.pc + 1 } ∧
    entry = r.name ++ " = ".toList ++ dec (s.reg r) ∧ '\n' ∉ entry

/-- 41_output_and_halt.md R141, decision D19 (log 20): the rendering is the shortest base-10 spelling,
and it reads back as the value. -/
def Obligations.DecimalIsShortest : Prop :=
  ∀ v : Int, parseLit (dec v) = some v ∧
    ∃ ds : Text, dec v = (if v < 0 then '-' :: ds else ds) ∧ ds ≠ [] ∧
      (∀ c ∈ ds, '0' ≤ c ∧ c ≤ '9') ∧ (ds.head? = some '0' → ds = ['0'])

/-- 41_output_and_halt.md R145 and R146: `HLT` completes, halts, appends its entry, advances the pc,
and the run then ends as `Halted`; nothing else changes. -/
def Obligations.HltEndsTheRun : Prop :=
  ∀ s : State, ∃ t, exec .hlt s = .next t ∧
    t = { s with halted := true, out := s.out ++ ["Program halted.".toList], pc := s.pc + 1 } ∧
    t.ended = some (.halted (joinLines (s.out ++ ["Program halted.".toList])))

/-- 41_output_and_halt.md R140, R145: the frame of `PRN` and `HLT`: no register and no flag. -/
def Obligations.OutputFrame : Prop :=
  ∀ (i : Instr) (s t : State), (∃ r, i = .prn r) ∨ i = .hlt → exec i s = .next t →
    (∀ r, t.reg r = s.reg r) ∧ t.carry = s.carry ∧ t.pc = s.pc + 1 ∧
    (t.halted = true ↔ s.halted = true ∨ i = .hlt) ∧
    (∃ e, t.out = s.out ++ [e]) ∧ t.program = s.program ∧ t.params = s.params

/-! ### Jumps -/

/-- R166: a taken jump to `a`, by `JMP` or by `JC` with carry 1, leaves `a` in the pc when the step
ends, so the next line fetched is the one at index `a`, and nothing else changes. The `a - 1` inside
the step is not visible: the model writes `a` at once, as the rule allows (log 3). -/
def Obligations.TakenJumpLeavesTargetInPc : Prop :=
  ∀ (addr : Operand) (s : State) (i : Instr),
    i = .jmp addr ∨ (i = .jc addr ∧ s.carry = true) → 0 ≤ operandValue addr s →
    ∃ t, exec i s = .next t ∧ (t.pc : Int) = operandValue addr s ∧
      t = { s with pc := t.pc } ∧ t.fetch = s.program[t.pc]?

/-- 42_control_transfer.md R168, decision D11 (log 10): a taken jump to a negative target raises, and
a `JC` that is not taken does not. -/
def Obligations.NegativeJumpRaises : Prop :=
  ∀ (addr : Operand) (s : State) (a : Int),
    a = operandValue addr s → a < 0 →
    exec (.jmp addr) s = .fault (.lineError (s.pc + 1) (.jumpTargetNegative a)) ∧
    (s.carry = true →
      exec (.jc addr) s = .fault (.lineError (s.pc + 1) (.jumpTargetNegative a))) ∧
    (s.carry = false → exec (.jc addr) s = .next { s with pc := s.pc + 1 })

/-- 42_control_transfer.md R169 and R170: `JC` completes, taken exactly when carry is 1; it leaves
carry and everything but the pc. -/
def Obligations.JcJumpsOnCarry : Prop :=
  ∀ (addr : Operand) (s : State),
    (s.carry = true → 0 ≤ operandValue addr s →
      ∃ t, exec (.jc addr) s = .next t ∧
        (t.pc : Int) = operandValue addr s ∧
        t = { s with pc := t.pc }) ∧
    (s.carry = false → exec (.jc addr) s = .next { s with pc := s.pc + 1 })

/-- R171: a taken jump at or past the end of the program is legal and ends the run as `Exhausted`, with
no entry added. -/
def Obligations.JumpPastEndExhausts : Prop :=
  ∀ (addr : Operand) (s : State) (i : Instr), s.halted = false →
    i = .jmp addr ∨ (i = .jc addr ∧ s.carry = true) →
    (s.program.length : Int) ≤ operandValue addr s →
    ∃ t, exec i s = .next t ∧
      (t.pc : Int) = operandValue addr s ∧
      t.out = s.out ∧ ∀ k, runFor k t = .exhausted (joinLines s.out)

/-- 42_control_transfer.md R163, R165, R169: the frame of `JMP`, `JC` and the blank line: the pc
alone. -/
def Obligations.JumpFrame : Prop :=
  ∀ (i : Instr) (s t : State), (∃ a, i = .jmp a) ∨ (∃ a, i = .jc a) ∨ i = .blank →
    exec i s = .next t →
    (∀ r, t.reg r = s.reg r) ∧ t.carry = s.carry ∧ t.halted = s.halted ∧ t.out = s.out ∧
    t.program = s.program ∧ t.params = s.params

/-! ### Rules of the whole machine -/

/-- R24: `ADD` and `SUB` alone write carry, each against its limit, which is 255 and 0 by default, and
`JC` alone reads it. -/
def Obligations.CarryWrittenByAddSubReadByJc : Prop :=
  Params.default.addCarryLimit = 255 ∧ Params.default.subCarryLimit = 0 ∧
  (∀ (i : Instr) (s t : State), exec i s = .next t →
    (∀ d src, i = .add d src → t.carry = decide (s.params.addCarryLimit < t.reg d)) ∧
    (∀ d src, i = .sub d src → t.carry = decide (t.reg d < s.params.subCarryLimit)) ∧
    ((∀ d src, i ≠ .add d src ∧ i ≠ .sub d src) → t.carry = s.carry)) ∧
  (∀ (i : Instr) (s : State) (c : Bool), (∀ a, i ≠ .jc a) →
    eraseCarry (exec i { s with carry := c }) = eraseCarry (exec i s))

/-- R26: the carry flag never changes a register value. -/
def Obligations.CarryNeverChangesRegisters : Prop :=
  ∀ (i : Instr) (s t t' : State) (c : Bool),
    exec i s = .next t → exec i { s with carry := c } = .next t' → t.regs = t'.regs

/-- 10_state.md R30: `HLT` alone sets the halted flag, nothing clears it, and a halted core issues no
further instruction; that a step of a halted core then answers the same state is the model's choice
(log 2). -/
def Obligations.OnlyHltHalts : Prop :=
  ∀ s t : State, step s = .next t →
    (s.halted = false → (t.halted = true ↔
      ∃ line, s.fetch = some line ∧ decode s.params line = .ok .hlt)) ∧
    (s.halted = true → t = s)

/-- 10_state.md R31: dispatch while halted has no effect, whatever the line, and the loop tests the flag
before it fetches; that a step of a halted state answers the same state is the model's choice
(log 2). -/
def Obligations.HaltedDispatchHasNoEffect : Prop :=
  ∀ s : State, s.halted = true →
    (∀ line : Text, dispatch line s = .next s) ∧
    (∀ prog : List Text, step { s with program := prog } = .next { s with program := prog }) ∧
    (∀ k, runFor k s = .halted s.outputText)

/-- R32: the output buffer grows by exactly one entry at a `PRN` or `HLT` and is otherwise left, and
no instruction reads it. -/
def Obligations.OutputIsAppendOnly : Prop :=
  (∀ (i : Instr) (s t : State), exec i s = .next t →
    ((∃ r, i = .prn r) ∨ i = .hlt → ∃ e, t.out = s.out ++ [e]) ∧
    ((∀ r, i ≠ .prn r) → i ≠ .hlt → t.out = s.out)) ∧
  (∀ (i : Instr) (s : State) (o : List Text),
    eraseOut (exec i { s with out := o }) = eraseOut (exec i s))

/-- R51: no step writes the program store or the parameters, so every later fetch sees the program the
host supplied. -/
def Obligations.ProgramIsImmutable : Prop :=
  (∀ s t : State, step s = .next t → t.program = s.program ∧ t.params = s.params) ∧
  (∀ (p : Params) (text : Text) (k : Nat) (t : State),
    runSteps k (State.start p text) = .next t →
    t.fetch = (splitLines text)[t.pc]?)

/-- R161: after every dispatch that does not raise the pc is one more than the dispatch left it: one
more than before for every line but a taken jump, and one more than `a - 1` for a taken jump. A
dispatch that raises leaves the pc, which the report names. -/
def Obligations.PcAdvancesByOne : Prop :=
  (∀ (i : Instr) (s t : State), exec i s = .next t →
    (∀ a, i = .jmp a ∨ (i = .jc a ∧ s.carry = true) →
      (t.pc : Int) = (operandValue a s - 1) + 1) ∧
    ((∀ a, i ≠ .jmp a) → (∀ a, i = .jc a → s.carry = false) → t.pc = s.pc + 1)) ∧
  (∀ (i : Instr) (s : State) (f : Fault), exec i s = .fault f → ∃ c, f = .lineError (s.pc + 1) c)

/-- R205: a line that raises ends the run at once in `Faulted` with the 1-based line number
of the pc, whether its decoding or its execution raises. -/
def Obligations.RaisingEndsTheRun : Prop :=
  ∀ (s : State) (line : Text) (k : Nat), s.halted = false → s.fetch = some line →
    (∀ c, decode s.params line = .error c →
      step s = .fault (.lineError (s.pc + 1) c) ∧
      runFor (k + 1) s = .faulted (.lineError (s.pc + 1) c)) ∧
    (∀ i f, decode s.params line = .ok i → exec i s = .fault f →
      (∃ c, f = .lineError (s.pc + 1) c) ∧ runFor (k + 1) s = .faulted f)

/-- 42_control_transfer.md R160, R164: when the line at the pc decodes to `i`, the step is the
execution of `i`, which ends with the advance. -/
def Obligations.StepRunsDecodedInstruction : Prop :=
  ∀ (s : State) (line : Text) (i : Instr), s.halted = false → s.fetch = some line →
    decode s.params line = .ok i → step s = exec i s

/-- 00_scope.md R2, 60_exceptions.md R218: every instruction has a meaning in every state. -/
def Obligations.StepNeverRefuses : Prop :=
  ∀ (s : State) (r : Refusal), step s ≠ .refused r

/-- 60_exceptions.md R210, the execution half, with R204's kind by decision D11 (log 10): which
instructions raise, when, and what. -/
def Obligations.ExecutionRaisesOnlyTwoKinds : Prop :=
  ∀ (i : Instr) (s : State) (f : Fault), exec i s = .fault f ↔
    (∃ a, (i = .jmp a ∨ (i = .jc a ∧ s.carry = true)) ∧
      operandValue a s < 0 ∧
      f = .lineError (s.pc + 1)
        (.jumpTargetNegative (operandValue a s))) ∨
    (∃ d src, i = .div d src ∧ operandValue src s = 0 ∧
      f = .lineError (s.pc + 1) .divisionByZero)

/-- 42_control_transfer.md R173, with the model's choice that an ended run stays as it is (log 2): no
transition leaves `Halted` or `Exhausted`. -/
def Obligations.EndedRunStays : Prop :=
  ∀ (s : State) (r : RunResult), s.ended = some r →
    (step s = .next s) ∧ (∀ k, runFor k s = r) ∧
    (∃ text, r = .halted text ∧ s.halted = true ∨ r = .exhausted text ∧ s.halted = false)

/-! ### Invariants and whole runs -/

/-- Every step keeps the machine's invariant: the program keeps a line and no line feed inside a line,
the output holds the entries of `PRN` and the one halt message of a halted core, and a halted core
has advanced (00_scope.md R13, 10_state.md R32, 41_output_and_halt.md R146, R147). -/
def Obligations.EveryStepKeepsInvariant : Prop :=
  ∀ s t : State, s.Inv → step s = .next t → t.Inv

/-- The invariant holds at the start of every run and at reset. -/
def Obligations.StartMeetsInvariant : Prop :=
  (∀ (p : Params) (text : Text), (State.start p text).Inv) ∧ State.reset.Inv

/-- R147: the message is these 15 characters, `HLT` alone appends it, a run that ends `Halted` has it
as the last line of its output text and nowhere else, and a run that ends `Exhausted` does not have
it. -/
def Obligations.HaltMessageOnlyFromHlt : Prop :=
  haltMessage = "Program halted.".toList ∧ haltMessage.length = 15 ∧
  (∀ (i : Instr) (s t : State), exec i s = .next t →
    (t.out = s.out ++ [haltMessage] ↔ i = .hlt)) ∧
  (∀ (p : Params) (text out : Text) (k : Nat), runText p k text = .halted out →
    ∃ ls, splitLines out = ls ++ [haltMessage] ∧ haltMessage ∉ ls) ∧
  (∀ (p : Params) (text out : Text) (k : Nat), runText p k text = .exhausted out →
    haltMessage ∉ splitLines out)

/-- 60_exceptions.md R216, 42_control_transfer.md R164: a text has at most one result, and a higher
ceiling never changes a result already reached. -/
def Obligations.RunResultIsUnique : Prop :=
  (∀ (p : Params) (text : Text) (k m : Nat) (r : RunResult), runText p k text = r →
    r ≠ .outOfSteps → k ≤ m → runText p m text = r) ∧
  (∀ (p : Params) (text : Text) (r r' : RunResult), RunsTo p text r → RunsTo p text r' → r = r')

/-- 42_control_transfer.md R174, decision D15 (log 8): the ceiling is reported exactly when that many
steps completed and the run has not ended. -/
def Obligations.CeilingReportsOutOfSteps : Prop :=
  ∀ (s : State) (k : Nat), runFor k s = .outOfSteps ↔
    ∃ t, runSteps k s = .next t ∧ t.ended = none

/-- 42_control_transfer.md R174 and R167: a line that jumps to its own index never ends, by `JMP`, or
by `JC` while carry is 1. -/
def Obligations.JumpToSelfNeverEnds : Prop :=
  ∀ (s : State) (line : Text) (i : Instr), s.halted = false → s.fetch = some line →
    decode s.params line = .ok i →
    i = .jmp (.lit (s.pc : Int)) ∨ (i = .jc (.lit (s.pc : Int)) ∧ s.carry = true) →
    ∀ k, runFor k s = .outOfSteps

/-- 42_control_transfer.md R160, R161 and R172: a text with no jump ends within as many steps as it
has lines, and when no line of it faults it ends `Halted` or `Exhausted`. -/
def Obligations.JumpFreeRunEnds : Prop :=
  ∀ (p : Params) (text : Text),
    (∀ line ∈ splitLines text, ∀ a, decode p line ≠ .ok (.jmp a) ∧ decode p line ≠ .ok (.jc a)) →
    runText p (splitLines text).length text ≠ .outOfSteps ∧
    (FaultFree p text → ∃ out, runText p (splitLines text).length text = .halted out ∨
      runText p (splitLines text).length text = .exhausted out)
end

