-- ==== Sys2Proof/Laws/Decode.lean ====
section
/-! SUPPORT. The tokenizer on spelled lines, the opcode and register tables, and decimal digits. -/

namespace Sys2Proof

/-! ### Tokens -/

theorem scan_token (w rest : Text) (hw : ∀ c ∈ w, isSpace c = false) :
    scan (w ++ rest) = (w ++ (scan rest).1, (scan rest).2) := by
  induction w with
  | nil => rfl
  | cons c cs ih =>
    simp only [List.mem_cons, forall_eq_or_imp] at hw
    simp [scan, hw.1, ih hw.2]

theorem tokens_space {c : Char} (hc : isSpace c = true) (rest : Text) :
    tokens (c :: rest) = tokens rest := by
  simp [tokens, scan, hc, consToken]

/-- A token, then whitespace, then the rest. -/
theorem tokens_token_space {w : Text} (hne : w ≠ []) (hw : ∀ c ∈ w, isSpace c = false)
    {b : Char} (hb : isSpace b = true) (rest : Text) :
    tokens (w ++ b :: rest) = w :: tokens rest := by
  obtain ⟨c, cs, rfl⟩ := List.exists_cons_of_ne_nil hne
  rw [tokens, scan_token _ _ hw]
  simp [scan, hb, consToken, tokens]

/-- A token that ends the line. -/
theorem tokens_token_end {w : Text} (hne : w ≠ []) (hw : ∀ c ∈ w, isSpace c = false) :
    tokens w = [w] := by
  obtain ⟨c, cs, rfl⟩ := List.exists_cons_of_ne_nil hne
  have h := scan_token _ [] hw
  simp only [List.append_nil] at h
  rw [tokens, h]
  simp [scan, consToken]

/-! ### Names -/

@[simp] theorem opcodeOf_name (op : Opcode) : opcodeOf op.name = some op := by
  cases op <;> decide

/-- An opcode is selected exactly by the spellings of its name. -/
theorem opcodeOf_eq_some {t : Text} {op : Opcode} :
    opcodeOf t = some op ↔ asciiUpper t = op.name := by
  constructor
  · intro h
    have hp := List.find?_some (p := fun op : Opcode => op.name == asciiUpper t) h
    exact (beq_iff_eq.mp hp).symm
  · intro h
    rw [opcodeOf, h]
    cases op <;> decide

@[simp] theorem regOf_name (r : Reg) : regOf r.name = some r := by
  cases r <;> decide

theorem Opcode.name_ne_nil (op : Opcode) : op.name ≠ [] := by
  cases op <;> decide

theorem Opcode.name_no_space (op : Opcode) : ∀ c ∈ op.name, isSpace c = false := by
  cases op <;> simp [Opcode.name, isSpace]

theorem Reg.name_ne_nil (r : Reg) : r.name ≠ [] := by
  cases r <;> decide

theorem Reg.name_no_space (r : Reg) : ∀ c ∈ r.name, isSpace c = false := by
  cases r <;> simp [Reg.name, isSpace]

theorem regname_name (r : Reg) : regname r.name = .ok r := by
  cases r <;> decide

theorem regname_name_comma (r : Reg) : regname (r.name ++ [',']) = .ok r := by
  cases r <;> decide

/-! ### Digits -/

theorem digitChar_facts : ∀ n, n < 10 →
    isDigit (digitChar n) = true ∧ isSpace (digitChar n) = false ∧ digitVal (digitChar n) = n ∧
      (digitChar n ≠ '\n' ∧ digitChar n ≠ '-' ∧ digitChar n ≠ 'R') := by
  decide

theorem digitsValue_append (n : Nat) (a b : Text) :
    digitsValue n (a ++ b) = digitsValue (digitsValue n a) b := by
  induction a generalizing n with
  | nil => rfl
  | cons c cs ih => simp [digitsValue, ih]

/-- `digitsOf` puts digits in front of `acc`, at least one, and they spell the number. -/
theorem digitsOf_spec (fuel n : Nat) (acc : Text) (h : n < fuel) :
    ∃ ds, digitsOf fuel n acc = ds ++ acc ∧ ds ≠ [] ∧ (∀ c ∈ ds, ∃ d, d < 10 ∧ c = digitChar d) ∧
      digitsValue 0 ds = n := by
  induction fuel generalizing n acc with
  | zero => omega
  | succ fuel ih =>
    rw [digitsOf]
    split
    · rename_i hn
      exact ⟨[digitChar n], rfl, by simp, by simpa using ⟨n, hn, rfl⟩,
        by simp [digitsValue, (digitChar_facts n hn).2.2.1]⟩
    · rename_i hn
      have hmod : n % 10 < 10 := Nat.mod_lt _ (by decide)
      obtain ⟨ds, heq, hne, hall, hval⟩ :=
        ih (n / 10) (digitChar (n % 10) :: acc) (by omega)
      refine ⟨ds ++ [digitChar (n % 10)], by simp [heq], by simp, ?_, ?_⟩
      · intro c hc
        rcases List.mem_append.mp hc with hc | hc
        · exact hall c hc
        · exact ⟨_, hmod, by simpa using hc⟩
      · rw [digitsValue_append, hval]
        simp only [digitsValue, (digitChar_facts _ hmod).2.2.1]
        omega

/-- The decimal spelling of a natural number is one or more digits that spell it. -/
theorem decNat_spec (n : Nat) :
    decNat n ≠ [] ∧ (∀ c ∈ decNat n, ∃ d, d < 10 ∧ c = digitChar d) ∧ digitsValue 0 (decNat n) = n := by
  obtain ⟨ds, heq, h⟩ := digitsOf_spec (n + 1) n [] (by omega)
  rw [List.append_nil] at heq
  rw [decNat, heq]
  exact h

/-- Every character of a decimal spelling is a minus sign or a digit. -/
theorem dec_chars (v : Int) : ∀ c ∈ dec v, c = '-' ∨ ∃ d, d < 10 ∧ c = digitChar d := by
  cases v with
  | ofNat n => exact fun c hc => .inr ((decNat_spec n).2.1 c hc)
  | negSucc n =>
    intro c hc
    rcases List.mem_cons.mp hc with rfl | hc
    · exact .inl rfl
    · exact .inr ((decNat_spec (n + 1)).2.1 c hc)

theorem dec_ne_nil (v : Int) : dec v ≠ [] := by
  cases v with
  | ofNat n => exact (decNat_spec n).1
  | negSucc n => exact List.cons_ne_nil _ _

theorem dec_no_space (v : Int) : ∀ c ∈ dec v, isSpace c = false := by
  intro c hc
  rcases dec_chars v c hc with rfl | ⟨d, hd, rfl⟩
  · decide
  · exact (digitChar_facts d hd).2.1

theorem Operand.text_ne_nil (o : Operand) : o.text ≠ [] := by
  cases o with
  | reg r => exact r.name_ne_nil
  | lit v => exact dec_ne_nil v

theorem Operand.text_no_space (o : Operand) : ∀ c ∈ o.text, isSpace c = false := by
  cases o with
  | reg r => exact r.name_no_space
  | lit v => exact dec_no_space v

end Sys2Proof
end

