-- ==== Sys2Proof/Laws/State.lean ====
section
/-! SUPPORT. One lemma per field per update of State, and the register file's read after write. -/

namespace Sys2Proof.Machine

theorem RegFile.read_write (x : RegFile) (r q : Reg) (v : Int) :
    (x.write r v).read q = if q = r then v else x.read q := by
  cases r <;> cases q <;> rfl

@[simp] theorem RegFile.read_write_same (x : RegFile) (r : Reg) (v : Int) :
    (x.write r v).read r = v := by
  cases r <;> rfl

theorem RegFile.read_write_other (x : RegFile) {r q : Reg} (v : Int) (h : q ≠ r) :
    (x.write r v).read q = x.read q := by
  simp [RegFile.read_write, h]

theorem RegFile.ext_read {x y : RegFile} (h : ∀ r, x.read r = y.read r) : x = y := by
  cases x
  cases y
  exact RegFile.mk.injEq .. ▸ ⟨h .r1, h .r2, h .r3, h .r4⟩

@[simp] theorem RegFile.write_read (x : RegFile) (r : Reg) : x.write r (x.read r) = x := by
  cases r <;> rfl

variable (s : State) (r : Reg) (v : Int) (c : Bool) (n : Nat) (e : Text)

@[simp] theorem State.regs_setReg : (s.setReg r v).regs = s.regs.write r v := rfl
@[simp] theorem State.carry_setReg : (s.setReg r v).carry = s.carry := rfl
@[simp] theorem State.pc_setReg : (s.setReg r v).pc = s.pc := rfl
@[simp] theorem State.halted_setReg : (s.setReg r v).halted = s.halted := rfl
@[simp] theorem State.out_setReg : (s.setReg r v).out = s.out := rfl
@[simp] theorem State.program_setReg : (s.setReg r v).program = s.program := rfl
@[simp] theorem State.params_setReg : (s.setReg r v).params = s.params := rfl

@[simp] theorem State.regs_setCarry : (s.setCarry c).regs = s.regs := rfl
@[simp] theorem State.carry_setCarry : (s.setCarry c).carry = c := rfl
@[simp] theorem State.pc_setCarry : (s.setCarry c).pc = s.pc := rfl
@[simp] theorem State.halted_setCarry : (s.setCarry c).halted = s.halted := rfl
@[simp] theorem State.out_setCarry : (s.setCarry c).out = s.out := rfl
@[simp] theorem State.program_setCarry : (s.setCarry c).program = s.program := rfl
@[simp] theorem State.params_setCarry : (s.setCarry c).params = s.params := rfl

@[simp] theorem State.regs_setPc : (s.setPc n).regs = s.regs := rfl
@[simp] theorem State.carry_setPc : (s.setPc n).carry = s.carry := rfl
@[simp] theorem State.pc_setPc : (s.setPc n).pc = n := rfl
@[simp] theorem State.halted_setPc : (s.setPc n).halted = s.halted := rfl
@[simp] theorem State.out_setPc : (s.setPc n).out = s.out := rfl
@[simp] theorem State.program_setPc : (s.setPc n).program = s.program := rfl
@[simp] theorem State.params_setPc : (s.setPc n).params = s.params := rfl

@[simp] theorem State.regs_halt : s.halt.regs = s.regs := rfl
@[simp] theorem State.carry_halt : s.halt.carry = s.carry := rfl
@[simp] theorem State.pc_halt : s.halt.pc = s.pc := rfl
@[simp] theorem State.halted_halt : s.halt.halted = true := rfl
@[simp] theorem State.out_halt : s.halt.out = s.out := rfl
@[simp] theorem State.program_halt : s.halt.program = s.program := rfl
@[simp] theorem State.params_halt : s.halt.params = s.params := rfl

@[simp] theorem State.regs_emit : (s.emit e).regs = s.regs := rfl
@[simp] theorem State.carry_emit : (s.emit e).carry = s.carry := rfl
@[simp] theorem State.pc_emit : (s.emit e).pc = s.pc := rfl
@[simp] theorem State.halted_emit : (s.emit e).halted = s.halted := rfl
@[simp] theorem State.out_emit : (s.emit e).out = s.out ++ [e] := rfl
@[simp] theorem State.program_emit : (s.emit e).program = s.program := rfl
@[simp] theorem State.params_emit : (s.emit e).params = s.params := rfl

@[simp] theorem State.regs_advance : s.advance.regs = s.regs := rfl
@[simp] theorem State.carry_advance : s.advance.carry = s.carry := rfl
@[simp] theorem State.pc_advance : s.advance.pc = s.pc + 1 := rfl
@[simp] theorem State.halted_advance : s.advance.halted = s.halted := rfl
@[simp] theorem State.out_advance : s.advance.out = s.out := rfl
@[simp] theorem State.program_advance : s.advance.program = s.program := rfl
@[simp] theorem State.params_advance : s.advance.params = s.params := rfl

theorem State.reg_of_regs {s t : State} (h : t.regs = s.regs) (r : Reg) : t.reg r = s.reg r :=
  congrArg (RegFile.read · r) h

end Sys2Proof.Machine
end

