-- ==== Sys2Proof/Laws/Ops.lean ====
section
/-! SUPPORT. What each shared operation, each meaning and the step can do, said once. -/

namespace Sys2Proof.Machine

variable {s t : State} {f : Fault}

/-! ### The carry flag's rules (40_alu.md R106, R110) -/

@[simp] theorem addCarry_eq (p : Params) (result : Int) :
    addCarry p result = decide (p.addCarryLimit < result) := rfl

@[simp] theorem subCarry_eq (p : Params) (result : Int) :
    subCarry p result = decide (result < p.subCarryLimit) := rfl

@[simp] theorem default_addCarryLimit : Params.default.addCarryLimit = 255 := rfl

@[simp] theorem default_subCarryLimit : Params.default.subCarryLimit = 0 := rfl

@[simp] theorem operandValue_reg (r : Reg) (s : State) : operandValue (.reg r) s = s.reg r := rfl

@[simp] theorem operandValue_lit (v : Int) (s : State) : operandValue (.lit v) s = v := rfl

/-! ### Raising and jumping -/

theorem raise_ne_next (c : Cause) : raise c s ≠ .next t := nofun

theorem raise_eq_fault {c : Cause} :
    raise c s = .fault f ↔ f = .lineError (s.pc + 1) c := by
  simp [raise, eq_comm]

theorem jumpTo_next {a : Int} :
    jumpTo a s = .next t ↔ 0 ≤ a ∧ t = s.setPc a.toNat := by
  unfold jumpTo
  split
  · rename_i ha
    exact ⟨fun h => absurd h (raise_ne_next _), fun h => absurd ha (not_lt.mpr h.1)⟩
  · rename_i ha
    exact ⟨fun h => ⟨not_lt.mp ha, by simpa using h.symm⟩, fun h => by rw [h.2]⟩

theorem jumpTo_fault {a : Int} :
    jumpTo a s = .fault f ↔ a < 0 ∧ f = .lineError (s.pc + 1) (.jumpTargetNegative a) := by
  unfold jumpTo
  split <;> simp [raise, eq_comm, *]

theorem jumpTo_ne_refused {a : Int} {r : Refusal} : jumpTo a s ≠ .refused r := by
  unfold jumpTo
  split <;> simp [raise]

/-! ### The meanings: the state each answers -/

/-- Every way an instruction can complete, with the state it leaves. -/
theorem exec_next {i : Instr} (h : exec i s = .next t) :
    (∃ d src, i = .mov d src ∧ t = (s.setReg d (operandValue src s)).advance) ∨
    (∃ d src, i = .add d src ∧ t = ((s.setReg d (s.reg d + operandValue src s)).setCarry
      (addCarry s.params (s.reg d + operandValue src s))).advance) ∨
    (∃ d src, i = .sub d src ∧ t = ((s.setReg d (s.reg d - operandValue src s)).setCarry
      (subCarry s.params (s.reg d - operandValue src s))).advance) ∨
    (∃ d src, i = .mul d src ∧ t = (s.setReg d (s.reg d * operandValue src s)).advance) ∨
    (∃ d src, i = .div d src ∧ operandValue src s ≠ 0 ∧
      t = (s.setReg d (floorDiv (s.reg d) (operandValue src s))).advance) ∨
    (∃ r, i = .prn r ∧ t = (s.emit (prnLine r (s.reg r))).advance) ∨
    (∃ a, i = .jmp a ∧ 0 ≤ operandValue a s ∧ t = s.setPc (operandValue a s).toNat) ∨
    (∃ a, i = .jc a ∧ s.carry = true ∧ 0 ≤ operandValue a s ∧
      t = s.setPc (operandValue a s).toNat) ∨
    (∃ a, i = .jc a ∧ s.carry = false ∧ t = s.advance) ∨
    (i = .hlt ∧ t = (s.halt.emit haltMessage).advance) ∨
    (i = .blank ∧ t = s.advance) := by
  cases i with
  | mov d src => exact .inl ⟨d, src, rfl, by simpa [exec, execMov] using h.symm⟩
  | add d src => exact .inr (.inl ⟨d, src, rfl, by simpa [exec, execAdd] using h.symm⟩)
  | sub d src => exact .inr (.inr (.inl ⟨d, src, rfl, by simpa [exec, execSub] using h.symm⟩))
  | mul d src => exact .inr (.inr (.inr (.inl ⟨d, src, rfl, by simpa [exec, execMul] using h.symm⟩)))
  | div d src =>
    refine .inr (.inr (.inr (.inr (.inl ⟨d, src, rfl, ?_⟩))))
    simp only [exec, execDiv] at h
    split at h
    · cases h
    · exact ⟨‹_›, by simpa using h.symm⟩
  | prn r =>
    exact .inr (.inr (.inr (.inr (.inr (.inl ⟨r, rfl, by simpa [exec, execPrn] using h.symm⟩)))))
  | jmp a =>
    exact .inr (.inr (.inr (.inr (.inr (.inr (.inl ⟨a, rfl, jumpTo_next.mp h⟩))))))
  | jc a =>
    simp only [exec, execJc] at h
    split at h
    · exact .inr (.inr (.inr (.inr (.inr (.inr (.inr (.inl ⟨a, rfl, ‹_›, jumpTo_next.mp h⟩)))))))
    · exact .inr (.inr (.inr (.inr (.inr (.inr (.inr (.inr (.inl
        ⟨a, rfl, by simpa using ‹¬s.carry = true›, by simpa using h.symm⟩))))))))
  | hlt => simp [show t = (s.halt.emit haltMessage).advance by simpa [exec, execHlt] using h.symm]
  | blank => simp [show t = s.advance by simpa [exec, execBlank] using h.symm]

/-- Every way an instruction can raise. -/
theorem exec_fault {i : Instr} (h : exec i s = .fault f) :
    (∃ a, (i = .jmp a ∨ (i = .jc a ∧ s.carry = true)) ∧ operandValue a s < 0 ∧
      f = .lineError (s.pc + 1) (.jumpTargetNegative (operandValue a s))) ∨
    (∃ d src, i = .div d src ∧ operandValue src s = 0 ∧
      f = .lineError (s.pc + 1) .divisionByZero) := by
  cases i with
  | div d src =>
    simp only [exec, execDiv] at h
    split at h
    · exact .inr ⟨d, src, rfl, ‹_›, raise_eq_fault.mp h⟩
    · cases h
  | jmp a => exact .inl ⟨a, .inl rfl, jumpTo_fault.mp h⟩
  | jc a =>
    simp only [exec, execJc] at h
    split at h
    · exact .inl ⟨a, .inr ⟨rfl, ‹_›⟩, jumpTo_fault.mp h⟩
    · cases h
  | _ => cases h

/-- No instruction touches the program or the parameters. -/
theorem exec_program {i : Instr} (h : exec i s = .next t) :
    t.program = s.program ∧ t.params = s.params := by
  rcases exec_next h with ⟨_, _, _, rfl⟩ | ⟨_, _, _, rfl⟩ | ⟨_, _, _, rfl⟩ | ⟨_, _, _, rfl⟩ |
    ⟨_, _, _, _, rfl⟩ | ⟨_, _, rfl⟩ | ⟨_, _, _, rfl⟩ | ⟨_, _, _, _, rfl⟩ | ⟨_, _, _, rfl⟩ |
    ⟨_, rfl⟩ | ⟨_, rfl⟩ <;> exact ⟨rfl, rfl⟩

/-! ### Dispatch and step -/

/-- Every way a step can answer a next state. -/
theorem step_next (h : step s = .next t) :
    (s.halted = true ∧ t = s) ∨
    (s.halted = false ∧ s.fetch = none ∧ t = s) ∨
    (s.halted = false ∧ ∃ line i, s.fetch = some line ∧ decode s.params line = .ok i ∧
      exec i s = .next t) := by
  simp only [step, loopStep] at h
  split at h
  · exact .inl ⟨‹_›, by simpa using h.symm⟩
  · rename_i hh
    have hf : s.halted = false := by simpa using hh
    split at h
    · exact .inr (.inl ⟨hf, ‹_›, by simpa using h.symm⟩)
    · rename_i line hl
      simp only [dispatch, hf, Bool.false_eq_true, if_false] at h
      split at h
      · exact absurd h (raise_ne_next _)
      · exact .inr (.inr ⟨hf, line, _, hl, ‹_›, h⟩)

/-- Every way a step can fault: the line does not decode, or its instruction raises. -/
theorem step_fault (h : step s = .fault f) :
    s.halted = false ∧ ∃ line, s.fetch = some line ∧
      ((∃ c, decode s.params line = .error c ∧ f = .lineError (s.pc + 1) c) ∨
        ∃ i, decode s.params line = .ok i ∧ exec i s = .fault f) := by
  simp only [step, loopStep] at h
  split at h
  · cases h
  · rename_i hh
    have hf : s.halted = false := by simpa using hh
    refine ⟨hf, ?_⟩
    split at h
    · cases h
    · rename_i line hl
      simp only [dispatch, hf, Bool.false_eq_true, if_false] at h
      split at h
      · exact ⟨line, hl, .inl ⟨_, ‹_›, raise_eq_fault.mp h⟩⟩
      · exact ⟨line, hl, .inr ⟨_, ‹_›, h⟩⟩

theorem fetch_none : s.fetch = none ↔ s.program.length ≤ s.pc := List.getElem?_eq_none_iff

theorem ended_eq_none : s.ended = none ↔ s.halted = false ∧ s.pc < s.program.length := by
  unfold State.ended
  split
  · simp [*]
  · split <;> simp_all

/-! ### Runs -/

theorem runFor_of_ended {r : RunResult} (h : s.ended = some r) (k : Nat) : runFor k s = r := by
  cases k <;> simp [runFor, h]

theorem runFor_zero_of_running (h : s.ended = none) : runFor 0 s = .outOfSteps := by
  simp [runFor, h]

theorem runFor_succ_of_next (h : s.ended = none) (hs : step s = .next t) (k : Nat) :
    runFor (k + 1) s = runFor k t := by
  rw [step] at hs
  simp [runFor, h, hs]

theorem runFor_succ_of_fault (h : s.ended = none) (hs : step s = .fault f) (k : Nat) :
    runFor (k + 1) s = .faulted f := by
  rw [step] at hs
  simp [runFor, h, hs]

theorem runSteps_succ_of_next (hs : step s = .next t) (k : Nat) :
    runSteps (k + 1) s = runSteps k t := by
  rw [step] at hs
  simp [runSteps, hs]

/-- A property that every step keeps holds after any number of steps. -/
theorem runSteps_keeps (P : State → Prop) (hP : ∀ s t, P s → step s = .next t → P t) :
    ∀ (k : Nat) (s t : State), P s → runSteps k s = .next t → P t := by
  intro k
  induction k with
  | zero =>
    intro s t h e
    simp only [runSteps, Host.Outcome.next.injEq] at e
    exact e ▸ h
  | succ k ih =>
    intro s t h e
    simp only [runSteps] at e
    split at e
    · exact ih _ t (hP s _ h ‹_›) e
    · cases e
    · cases e

/-! ### Placing a line -/

@[simp] theorem placeLine_getElem? (prog : List Text) (i : Nat) (line : Text) :
    (placeLine prog i line)[i]? = some line := by
  induction i generalizing prog with
  | zero => cases prog <;> rfl
  | succ i ih => cases prog <;> simpa [placeLine] using ih _

/-- Placing a line keeps every line of the program free of line feeds. -/
theorem placeLine_lines {prog : List Text} {i : Nat} {line : Text}
    (hp : ∀ l ∈ prog, '\n' ∉ l) (hl : '\n' ∉ line) : ∀ l ∈ placeLine prog i line, '\n' ∉ l := by
  induction i generalizing prog with
  | zero => cases prog <;> simp_all [placeLine]
  | succ i ih =>
    cases prog with
    | nil => simpa [placeLine] using ih (prog := []) (by simp)
    | cons a as =>
      intro l hmem
      rcases List.mem_cons.mp hmem with rfl | hmem
      · exact hp _ (by simp)
      · exact ih (fun m hm => hp m (by simp [hm])) l hmem

/-- The next step from a state with a line placed dispatches exactly that line. -/
theorem step_withLine (s : State) (line : Text) :
    step (s.withLine line) = dispatch line (s.withLine line) := by
  simp [step, loopStep, State.withLine, State.fetch]

end Sys2Proof.Machine
end

