-- ==== Sys2Proof/Laws/PerInstr.lean ====
section
/-! SUPPORT. The canonical line of each instruction tokenizes into the tokens of its format
(30_encoding.md R65, R81). -/

namespace Sys2Proof.Laws.CanonicalTokens

/-- The tokens of an instruction's format, spelled canonically. -/
def parts : Instr → List Text
  | .mov d s => [Opcode.mov.name, d.name ++ [','], s.text]
  | .add d s => [Opcode.add.name, d.name ++ [','], s.text]
  | .sub d s => [Opcode.sub.name, d.name ++ [','], s.text]
  | .mul d s => [Opcode.mul.name, d.name ++ [','], s.text]
  | .div d s => [Opcode.div.name, d.name ++ [','], s.text]
  | .prn r => [Opcode.prn.name, r.name]
  | .jmp a => [Opcode.jmp.name, a.text]
  | .jc a => [Opcode.jc.name, a.text]
  | .hlt => [Opcode.hlt.name]
  | .blank => []

/-- Encoding an instruction spells the tokens of its format and no other. -/
def Statement (i : Instr) : Prop := tokens (encode i) = parts i

theorem encodeT3_tokens (op : Opcode) (d : Reg) (s : Operand) :
    tokens (encodeT3 op d s) = [op.name, d.name ++ [','], s.text] := by
  have hd : ∀ c ∈ d.name ++ [','], isSpace c = false := by
    cases d <;> simp [Reg.name, isSpace]
  have hsplit : d.name ++ ',' :: ' ' :: s.text = (d.name ++ [',']) ++ ' ' :: s.text := by simp
  rw [encodeT3, tokens_token_space op.name_ne_nil op.name_no_space (by decide), hsplit,
    tokens_token_space (by simp) hd (by decide), tokens_token_end s.text_ne_nil s.text_no_space]

theorem encodeT2_tokens (op : Opcode) {w : Text} (hne : w ≠ []) (hw : ∀ c ∈ w, isSpace c = false) :
    tokens (encodeT2 op w) = [op.name, w] := by
  rw [encodeT2, tokens_token_space op.name_ne_nil op.name_no_space (by decide),
    tokens_token_end hne hw]

theorem mov (d : Reg) (s : Operand) : Statement (.mov d s) := encodeT3_tokens _ d s
theorem add (d : Reg) (s : Operand) : Statement (.add d s) := encodeT3_tokens _ d s
theorem sub (d : Reg) (s : Operand) : Statement (.sub d s) := encodeT3_tokens _ d s
theorem mul (d : Reg) (s : Operand) : Statement (.mul d s) := encodeT3_tokens _ d s
theorem div (d : Reg) (s : Operand) : Statement (.div d s) := encodeT3_tokens _ d s
theorem prn (r : Reg) : Statement (.prn r) := encodeT2_tokens _ r.name_ne_nil r.name_no_space
theorem jmp (a : Operand) : Statement (.jmp a) := encodeT2_tokens _ a.text_ne_nil a.text_no_space
theorem jc (a : Operand) : Statement (.jc a) := encodeT2_tokens _ a.text_ne_nil a.text_no_space
theorem hlt : Statement .hlt := tokens_token_end Opcode.hlt.name_ne_nil Opcode.hlt.name_no_space
theorem blank : Statement .blank := rfl

end Sys2Proof.Laws.CanonicalTokens
end

