-- ==== Sys2Proof/Tests/Slice0.lean ====
section
/-! SUPPORT. Tests from the spec's own vectors (95_test_vectors.md, cited by section), the
well-formedness smoke, and for each statement with hypotheses a concrete case that meets them. -/

namespace Sys2Proof.Tests
open Sys2Proof.Machine

/-! ### Helpers -/

/-- A state at index 0 of a program of one line. -/
def oneLine (line : String) (x : RegFile) (carry : Bool) : State :=
  { State.reset with regs := x, carry := carry, program := [line.toList] }

/-- The state of 95_test_vectors.md 2.8: the line at index 3 of ten, the others blank. -/
def fourth (line : String) (carry : Bool) : State :=
  { State.reset with
    carry := carry, pc := 3
    program := [[], [], [], line.toList, [], [], [], [], [], []] }

def x0 : RegFile := { r1 := 0, r2 := 0, r3 := 0, r4 := 0 }

def after : Host.Outcome State Fault Refusal → Option State
  | .next s => some s
  | _ => none

def report : Host.Outcome State Fault Refusal → Option Fault
  | .fault f => some f
  | _ => none

def ignoring : Params := { Params.default with extraTokens := .ignore }

def resolving : Params := { Params.default with jumpOperand := .resolve }

/-- What a step does to a register, carry and pc. -/
def shows (r : Reg) (s : State) : Option (Int × Bool × Nat) :=
  (after (step s)).map fun t => (t.reg r, t.carry, t.pc)

/-! ### Well-formedness: the two checks refuse a register, unless jumps resolve -/

theorem test_wf_jmp_register : (Instr.jmp (.reg .r1)).wf Params.default = false := by decide
theorem test_wf_jc_register : (Instr.jc (.reg .r1)).wf Params.default = false := by decide
theorem test_wf_jmp_resolve : (Instr.jmp (.reg .r1)).wf resolving = true := by decide
theorem test_wf_jc_resolve : (Instr.jc (.reg .r1)).wf resolving = true := by decide

/-! ### Decoding: words written out from 30_encoding.md, one or more per constructor -/

theorem test_decode_mov :
    decode Params.default ['M', 'O', 'V', ' ', 'R', '1', ',', ' ', '-', '5'] =
      .ok (.mov .r1 (.lit (-5))) := by decide
theorem test_decode_add : decode Params.default "  Add\tR2 R3  ".toList = .ok (.add .r2 (.reg .r3)) := by
  decide
theorem test_decode_sub : decode Params.default "SUB R4, 300".toList = .ok (.sub .r4 (.lit 300)) := by
  decide
theorem test_decode_mul : decode Params.default "mul R3, R3".toList = .ok (.mul .r3 (.reg .r3)) := by
  decide
theorem test_decode_div : decode Params.default "DIV R1, 007".toList = .ok (.div .r1 (.lit 7)) := by
  decide
theorem test_decode_prn : decode Params.default "PRN R2,".toList = .ok (.prn .r2) := by decide
theorem test_decode_jmp : decode Params.default "JMP 4".toList = .ok (.jmp (.lit 4)) := by decide
theorem test_decode_jmp_register : decode resolving "JMP R1".toList = .ok (.jmp (.reg .r1)) := by decide
theorem test_decode_jc : decode Params.default "jc -1".toList = .ok (.jc (.lit (-1))) := by decide
theorem test_decode_hlt : decode Params.default "hlt\x0d".toList = .ok .hlt := by decide
theorem test_decode_blank : decode Params.default " \x09\x0b\x0c ".toList = .ok .blank := by decide

/-- 95_test_vectors.md 2.1 to 2.8: rejections, by kind and detail. -/
theorem test_decode_rejects :
    decode Params.default "MOV R1,5".toList = .error (.malformedInstruction "MOV R1,5".toList) ∧
    decode Params.default "MOV R1, 5, 6".toList =
      .error (.malformedInstruction "MOV R1, 5, 6".toList) ∧
    decode Params.default "MOV R1,, 5".toList = .error (.invalidRegister "R1,".toList) ∧
    decode Params.default "MOV R1, R2,".toList = .error (.invalidOperand "R2,".toList) ∧
    decode Params.default "MOV R1, +5".toList = .error (.invalidOperand "+5".toList) ∧
    decode Params.default "DIV R9, 0".toList = .error (.invalidRegister "R9".toList) ∧
    decode Params.default "PRN 5".toList = .error (.invalidRegister "5".toList) ∧
    decode Params.default "JMP R1".toList = .error (.invalidOperand "R1".toList) ∧
    decode Params.default "JMP 4,".toList = .error (.invalidOperand "4,".toList) ∧
    decode Params.default "loop:".toList = .error (.unknownInstruction "loop:".toList) := by
  refine ⟨?_, ?_, ?_, ?_, ?_, ?_, ?_, ?_, ?_, ?_⟩ <;> decide

/-- 95_test_vectors.md 2.1 and 2.6 under `EXTRA_TOKENS = ignore`. -/
theorem test_decode_ignores_extra :
    decode ignoring "MOV R1, 5 6".toList = .ok (.mov .r1 (.lit 5)) ∧
    decode ignoring "HLT now".toList = .ok .hlt := by decide

/-- 30_encoding.md R60: a trailing line feed yields a final blank line, the empty text one. -/
theorem test_split : splitLines "HLT\nPRN R1\n".toList = ["HLT".toList, "PRN R1".toList, []] ∧
    splitLines [] = [[]] := by decide

/-- 41_output_and_halt.md R141 and 95_test_vectors.md 2.4: spellings. -/
theorem test_dec : dec 0 = "0".toList ∧ dec (-2) = "-2".toList ∧
    dec 340282366920938463463374607431768211456 =
      "340282366920938463463374607431768211456".toList := by
  refine ⟨by decide, by decide, by decide⟩

/-! ### Execution: 95_test_vectors.md section 2, one step each -/

theorem test_mov_keeps_carry :
    shows .r1 (oneLine "MOV R1, -5" x0 true) = some (-5, true, 1) := by decide
theorem test_mov_unbounded :
    shows .r1 (oneLine "MOV R1, 123456789012345678901234567890" x0 false) =
      some (123456789012345678901234567890, false, 1) := by decide
theorem test_add_above_limit :
    shows .r1 (oneLine "ADD R1, 11" { x0 with r1 := 245 } false) = some (256, true, 1) := by decide
theorem test_add_at_limit :
    shows .r1 (oneLine "ADD R1, 0" { x0 with r1 := 255 } true) = some (255, false, 1) := by decide
theorem test_sub_negative :
    shows .r1 (oneLine "SUB R1, 6" { x0 with r1 := 5 } false) = some (-1, true, 1) := by decide
theorem test_sub_register :
    shows .r1 (oneLine "SUB R1, R2" { x0 with r2 := -1 } true) = some (1, false, 1) := by decide
/-- 00_scope.md R9 and 93_implementation_defined.md I7: limits an audit corrected, 127 and -1. -/
theorem test_limits_are_parameters :
    let p : Params := { Params.default with addCarryLimit := 127, subCarryLimit := -1 }
    shows .r1 { oneLine "ADD R1, 8" { x0 with r1 := 120 } false with params := p } = some (128, true, 1) ∧
    shows .r1 { oneLine "SUB R1, 1" x0 true with params := p } = some (-1, false, 1) := by decide
theorem test_mul_signs :
    shows .r1 (oneLine "MUL R1, 4" { x0 with r1 := -3 } true) = some (-12, true, 1) := by decide
theorem test_mul_square :
    shows .r1 (oneLine "MUL R1, R1" { x0 with r1 := 18446744073709551616 } false) =
      some (340282366920938463463374607431768211456, false, 1) := by decide
theorem test_div_floor :
    shows .r1 (oneLine "DIV R1, 2" { x0 with r1 := -7 } true) = some (-4, true, 1) := by decide
theorem test_div_zero :
    report (step (oneLine "DIV R1, R2" { x0 with r1 := 5 } false)) =
      some (.lineError 1 .divisionByZero) := by decide
theorem test_prn :
    (after (step (oneLine "PRN R3" { x0 with r3 := -2 } false))).map (·.out) =
      some ["R3 = -2".toList] := by decide
theorem test_hlt :
    (after (step (oneLine "HLT" x0 true))).map (fun t => (t.halted, t.out, t.carry, t.pc)) =
      some (true, ["Program halted.".toList], true, 1) := by decide
theorem test_blank :
    after (step (oneLine "   \t " x0 true)) =
      some { oneLine "   \t " x0 true with pc := 1 } := by decide
theorem test_jmp : (after (step (fourth "JMP 4" false))).map (·.pc) = some 4 := by decide
theorem test_jmp_negative :
    report (step (fourth "JMP -1" false)) = some (.lineError 4 (.jumpTargetNegative (-1))) := by decide
theorem test_jc_taken : (after (step (fourth "jc 2" true))).map (·.pc) = some 2 := by decide
theorem test_jc_not_taken : (after (step (fourth "JC -1" false))).map (·.pc) = some 4 := by decide
/-- 95_test_vectors.md 2.8: decoded though not taken. -/
theorem test_jc_undecodable :
    report (step (fourth "JC x" false)) = some (.lineError 4 (.invalidOperand "x".toList)) := by decide
/-- 95_test_vectors.md S6. -/
theorem test_unknown :
    report (step (oneLine "FOO R1, 1" x0 false)) =
      some (.lineError 1 (.unknownInstruction "FOO".toList)) := by decide

/-- The bytes of `HLT`, the first at bit 0, as a number: decoded, and run first after reset. -/
theorem test_table_word :
    decodeTableWord 24 0x544C48 = some .hlt ∧
    (after (step (State.reset.withFetchWord 24 0x544C48))).map (·.halted) = some true := by decide

/-! ### Witnesses: concrete cases that meet the hypotheses of the statements -/

def stopped : State := { State.reset with halted := true, pc := 1, out := [haltMessage] }
def done : State := { State.reset with pc := 1 }

theorem witness_RunResultJoinsOutput :
    stopped.halted = true ∧ (done.halted = false ∧ done.program.length ≤ done.pc) ∧
    done.out = [] ∧ stopped.out = haltMessage :: [] := by decide

theorem witness_BlankLineIsNoOp :
    State.reset.halted = false ∧ State.reset.fetch = some [] ∧
    (oneLine " " x0 false).fetch = some [' '] ∧ [' '].all isSpace = true := by decide

theorem witness_LineEdgeWhitespaceIgnored :
    [' ', '\t'].all isSpace = true ∧ ['\x0d'].all isSpace = true ∧
    decode Params.default "HLT".toList = .ok .hlt ∧
    decode Params.default "MOV".toList = .error (.malformedInstruction "MOV".toList) := by decide

theorem witness_UnknownOpcodeRaises :
    tokens "FOO R1".toList = "FOO".toList :: ["R1".toList] ∧
    tokens "hlt".toList = "hlt".toList :: [] := by decide

theorem witness_OpcodeCaseIgnored :
    tokens "prn R1".toList = "prn".toList :: ["R1".toList] ∧
    tokens "PRN R1".toList = "PRN".toList :: ["R1".toList] ∧
    asciiUpper "prn".toList = asciiUpper "PRN".toList ∧
    '@' ∉ "abcdefghijklmnopqrstuvwxyz".toList ∧ '`' ∉ "abcdefghijklmnopqrstuvwxyz".toList ∧
    Char.ofNat 0xE9 ∉ "abcdefghijklmnopqrstuvwxyz".toList := by decide

/-- One token short, one too many under each parameter, and exactly enough. -/
theorem witness_TokenCountDecides :
    (tokens "MOV R1".toList = "MOV".toList :: ["R1".toList] ∧
      asciiUpper "MOV".toList = Opcode.mov.name ∧ 1 + 1 < Opcode.mov.arity) ∧
    (tokens "HLT x".toList = "HLT".toList :: ["x".toList] ∧
      Opcode.hlt.arity < 1 + 1 ∧ Params.default.extraTokens = .fault) ∧
    (ignoring.extraTokens = .ignore ∧ Opcode.hlt.arity ≤ 1 + 1 ∧
      tokens "HLT".toList = "HLT".toList :: (["x".toList].take (Opcode.hlt.arity - 1))) ∧
    (tokens "PRN R1".toList = "PRN".toList :: ["R1".toList] ∧ Opcode.prn.arity ≤ 1 + 1) := by decide

theorem witness_CommaIsOptional : Opcode.mov.arity = 3 ∧ Opcode.div.arity = 3 := by decide

theorem witness_RegisterOperandStripsOneComma :
    (∀ r : Reg, "R1,,".toList ≠ r.name ∧ "R1,,".toList ≠ r.name ++ [',']) ∧
    "R1,,".toList = "R1,".toList ++ [','] ∧
    (∀ r : Reg, "5".toList ≠ r.name ∧ "5".toList ≠ r.name ++ [',']) ∧
    (∀ n : Text, "5".toList ≠ n ++ [',']) := by
  refine ⟨fun r => by cases r <;> decide, by decide, fun r => by cases r <;> decide, fun n h => ?_⟩
  have := congrArg List.getLast? h
  simp at this

theorem witness_ValueOperandResolves :
    (∀ r : Reg, "-0".toList ≠ r.name) ∧ parseLit "-0".toList = some 0 ∧
    (∀ r : Reg, "R5".toList ≠ r.name) ∧ parseLit "R5".toList = none := by
  refine ⟨fun r => by cases r <;> decide, by decide, fun r => by cases r <;> decide, by decide⟩

theorem witness_JumpOperandForm :
    resolving.jumpOperand = .resolve ∧ Params.default.jumpOperand = .literal ∧
    parseLit "0".toList = some 0 ∧ parseLit "x".toList = none ∧ "R4".toList = Reg.r4.name := by decide

theorem witness_OperandErrorsInOrder :
    tokens "DIV R9, 0".toList = ["DIV".toList, "R9,".toList, "0".toList] ∧
    asciiUpper "DIV".toList = Opcode.div.name ∧ Opcode.div.arity = 3 ∧
    regname "R9,".toList = .error (.invalidRegister "R9".toList) ∧
    tokens "ADD R1 x".toList = ["ADD".toList, "R1".toList, "x".toList] ∧
    regname "R1".toList = .ok .r1 ∧ valueOperand "x".toList = .error (.invalidOperand "x".toList) ∧
    tokens "Sub R1 007".toList = ["Sub".toList, "R1".toList, "007".toList] ∧
    asciiUpper "Sub".toList = Opcode.sub.name ∧ valueOperand "007".toList = .ok (.lit 7) := by
  refine ⟨?_, ?_, ?_, ?_, ?_, ?_, ?_, ?_, ?_, ?_⟩ <;> decide

/-- A line of each opcode, with an operand that decodes and one that does not. -/
theorem witness_OneOperandLinesDecode :
    (tokens "prn R4,".toList = ["prn".toList, "R4,".toList] ∧
      asciiUpper "prn".toList = Opcode.prn.name ∧ regname "R4,".toList = .ok .r4 ∧
      regname "R5".toList = .error (.invalidRegister "R5".toList)) ∧
    (tokens "JMP -0".toList = ["JMP".toList, "-0".toList] ∧
      asciiUpper "JMP".toList = Opcode.jmp.name ∧
      addrOperand Params.default "-0".toList = .ok (.lit 0) ∧
      addrOperand Params.default "R1".toList = .error (.invalidOperand "R1".toList)) ∧
    (tokens "jC R1".toList = ["jC".toList, "R1".toList] ∧ asciiUpper "jC".toList = Opcode.jc.name ∧
      addrOperand resolving "R1".toList = .ok (.reg .r1)) ∧
    (tokens " hlt ".toList = ["hlt".toList] ∧ asciiUpper "hlt".toList = Opcode.hlt.name) := by
  refine ⟨⟨?_, ?_, ?_, ?_⟩, ⟨?_, ?_, ?_, ?_⟩, ⟨?_, ?_, ?_⟩, ?_, ?_⟩ <;> decide

theorem witness_JcOperandDecodedWhateverCarry :
    (fourth "JC x" false).halted = false ∧ (fourth "JC x" false).fetch = some "JC x".toList ∧
    tokens "JC x".toList = ["JC".toList, "x".toList] ∧ asciiUpper "JC".toList = Opcode.jc.name ∧
    addrOperand (fourth "JC x" false).params "x".toList = .error (.invalidOperand "x".toList) ∧
    (fourth "JC 2" true).fetch = some "JC 2".toList ∧
    tokens "JC 2".toList = ["JC".toList, "2".toList] ∧
    addrOperand (fourth "JC 2" true).params "2".toList = .ok (.lit 2) := by
  refine ⟨?_, ?_, ?_, ?_, ?_, ?_, ?_, ?_⟩ <;> decide

theorem witness_DecodeInvertsEncode :
    (Instr.jmp (.lit (-1))).wf Params.default = true ∧ (Instr.jc (.reg .r2)).wf resolving = true ∧
    (Instr.blank).wf Params.default = true := by decide

theorem witness_DecodedInstructionsAreWellFormed :
    decode resolving "JC R2".toList = .ok (.jc (.reg .r2)) := by decide

theorem witness_DecoderReportsItsFourKinds :
    decode Params.default "FOO".toList = .error (.unknownInstruction "FOO".toList) ∧
    decode Params.default "PRN".toList = .error (.malformedInstruction "PRN".toList) ∧
    decode Params.default "PRN R5,".toList = .error (.invalidRegister "R5".toList) ∧
    decode Params.default "JC x".toList = .error (.invalidOperand "x".toList) := by
  refine ⟨?_, ?_, ?_, ?_⟩ <;> decide

theorem witness_DivRoundsTowardNegativeInfinity :
    operandValue (.lit 1) State.reset ≠ 0 ∧ operandValue (.lit (-1)) State.reset ≠ 0 := by decide

theorem witness_DivByZeroRaises :
    operandValue (.reg .r2) (oneLine "DIV R1, R2" x0 false) = 0 ∧
    (oneLine "DIV R1, R2" x0 false).halted = false ∧
    (oneLine "DIV R1, R2" x0 false).fetch = some "DIV R1, R2".toList ∧
    decode (oneLine "DIV R1, R2" x0 false).params "DIV R1, R2".toList = .ok (.div .r1 (.reg .r2)) := by
  refine ⟨?_, ?_, ?_, ?_⟩ <;> decide

theorem witness_SourceMayBeDestination :
    (oneLine "DIV R1, R1" { x0 with r1 := -9 } false).reg .r1 ≠ 0 := by decide

theorem witness_AluFrame :
    [Instr.mov .r1 (.lit 2), .add .r1 (.lit 2), .sub .r1 (.lit 2), .mul .r1 (.lit 2),
      .div .r1 (.lit 2)].all (fun i => (after (exec i State.reset)).isSome) = true := by decide

theorem witness_OutputFrame :
    (after (exec (.prn .r1) State.reset)).isSome = true ∧
    (after (exec .hlt State.reset)).isSome = true := by decide

theorem witness_TakenJumpLeavesTargetInPc :
    0 ≤ operandValue (.lit 0) State.reset ∧
    (fourth "JC 0" true).carry = true ∧ 0 ≤ operandValue (.lit 0) (fourth "JC 0" true) := by decide

theorem witness_NegativeJumpRaises :
    -1 = operandValue (.lit (-1)) State.reset ∧ (-1 : Int) < 0 ∧ State.reset.carry = false ∧
    -1 = operandValue (.lit (-1)) (fourth "JC -1" true) ∧ (fourth "JC -1" true).carry = true := by decide

theorem witness_JcJumpsOnCarry :
    (fourth "JC 0" true).carry = true ∧ 0 ≤ operandValue (.lit 0) (fourth "JC 0" true) ∧
    (fourth "JC 0" false).carry = false := by decide

/-- The first target past the end, by `JMP` and by a taken `JC`. -/
theorem witness_JumpPastEndExhausts :
    (fourth "JMP 10" false).halted = false ∧
    ((fourth "JMP 10" false).program.length : Int) ≤ operandValue (.lit 10) (fourth "JMP 10" false) ∧
    (fourth "JC 10" true).carry = true ∧
    ((fourth "JC 10" true).program.length : Int) ≤ operandValue (.lit 10) (fourth "JC 10" true) := by
  decide

theorem witness_JumpFrame :
    (after (exec (.jmp (.lit 0)) State.reset)).isSome = true ∧
    (after (exec (.jc (.lit (-1))) State.reset)).isSome = true ∧
    (after (exec .blank State.reset)).isSome = true := by decide

/-- `ADD`, `SUB` and an instruction that is neither complete; the last one is not `JC`. -/
theorem witness_CarryWrittenByAddSubReadByJc :
    (after (exec (.add .r1 (.lit 256)) State.reset)).isSome = true ∧
    (after (exec (.sub .r1 (.lit 1)) State.reset)).isSome = true ∧
    (after (exec .hlt State.reset)).isSome = true ∧
    (∀ d src, Instr.hlt ≠ .add d src ∧ Instr.hlt ≠ .sub d src) ∧ (∀ a, Instr.hlt ≠ .jc a) :=
  ⟨by decide, by decide, by decide, fun _ _ => ⟨nofun, nofun⟩, nofun⟩

theorem witness_CarryNeverChangesRegisters :
    (after (exec (.jc (.lit 3)) State.reset)).isSome = true ∧
    (after (exec (.jc (.lit 3)) { State.reset with carry := true })).isSome = true := by decide

theorem witness_OnlyHltHalts :
    (after (step (oneLine "HLT" x0 false))).isSome = true ∧ (oneLine "HLT" x0 false).halted = false ∧
    (after (step State.reset)).isSome = true ∧ State.reset.halted = false ∧
    (after (step stopped)).isSome = true ∧ stopped.halted = true := by decide

theorem witness_HaltedDispatchHasNoEffect : stopped.halted = true := by decide

/-- `PRN` and `HLT` complete, and so does an instruction that is neither. -/
theorem witness_OutputIsAppendOnly :
    exec (.prn .r1) State.reset = .next (State.reset.emit (prnLine .r1 0)).advance ∧
    exec .hlt State.reset = .next (State.reset.halt.emit haltMessage).advance ∧
    exec .blank State.reset = .next State.reset.advance ∧
    (∀ r, Instr.blank ≠ .prn r) ∧ Instr.blank ≠ .hlt :=
  ⟨rfl, rfl, rfl, nofun, nofun⟩

theorem witness_ProgramIsImmutable :
    (after (step State.reset)).isSome = true ∧
    (after (runSteps 1 (State.start Params.default "HLT".toList))).isSome = true := by decide

/-- A taken jump to 0, a jump not taken, and a line that does not jump. -/
theorem witness_PcAdvancesByOne :
    (after (exec (.jmp (.lit 0)) State.reset)).isSome = true ∧
    ((after (exec (.jc (.lit 0)) (fourth "JC 0" true))).isSome = true ∧
      (fourth "JC 0" true).carry = true) ∧
    (after (exec (.jc (.lit 0)) State.reset)).isSome = true ∧ State.reset.carry = false ∧
    (after (exec .hlt State.reset)).isSome = true ∧
    report (exec (.div .r1 (.lit 0)) State.reset) = some (.lineError 1 .divisionByZero) := by decide

theorem witness_RaisingEndsTheRun :
    ((oneLine "FOO" x0 false).halted = false ∧ (oneLine "FOO" x0 false).fetch = some "FOO".toList ∧
      decode (oneLine "FOO" x0 false).params "FOO".toList =
        .error (.unknownInstruction "FOO".toList)) ∧
    ((oneLine "JMP -1" x0 false).fetch = some "JMP -1".toList ∧
      decode (oneLine "JMP -1" x0 false).params "JMP -1".toList = .ok (.jmp (.lit (-1))) ∧
      report (exec (.jmp (.lit (-1))) (oneLine "JMP -1" x0 false)) =
        some (.lineError 1 (.jumpTargetNegative (-1)))) := by
  refine ⟨⟨?_, ?_, ?_⟩, ?_, ?_, ?_⟩ <;> decide

theorem witness_StepRunsDecodedInstruction :
    (oneLine "HLT" x0 false).halted = false ∧ (oneLine "HLT" x0 false).fetch = some "HLT".toList ∧
    decode (oneLine "HLT" x0 false).params "HLT".toList = .ok .hlt := by decide

theorem witness_EndedRunStays :
    stopped.ended = some (.halted haltMessage) ∧ done.ended = some (.exhausted []) := by decide

theorem witness_EveryStepKeepsInvariant :
    State.reset.Inv ∧ step State.reset = .next State.reset.advance :=
  ⟨⟨by decide, by decide, by simp [State.OutputOk, State.reset, State.start], by decide⟩, rfl⟩

theorem witness_HaltMessageOnlyFromHlt :
    (after (exec .hlt State.reset)).isSome = true ∧
    runText Params.default 1 "HLT".toList = .halted "Program halted.".toList ∧
    runText Params.default 1 "PRN R1".toList = .exhausted "R1 = 0".toList := by decide

theorem witness_RunResultIsUnique :
    (runText Params.default 1 "HLT".toList = .halted haltMessage ∧
      RunResult.halted haltMessage ≠ .outOfSteps ∧ 1 ≤ 2) ∧
    RunsTo Params.default "HLT".toList (.halted haltMessage) ∧
    RunsTo { Params.default with maxSteps := some 0 } "HLT".toList .outOfSteps :=
  ⟨by decide, ⟨by decide, 1, by decide⟩, show runText _ 0 _ = _ by decide⟩

theorem witness_JumpToSelfNeverEnds :
    (decode Params.default "JMP 3".toList = .ok (.jmp (.lit 3)) ∧
      (fourth "JMP 3" false).fetch = some "JMP 3".toList ∧ (fourth "JMP 3" false).pc = 3) ∧
    (decode Params.default "JC 3".toList = .ok (.jc (.lit 3)) ∧
      (fourth "JC 3" true).fetch = some "JC 3".toList ∧ (fourth "JC 3" true).carry = true ∧
      (fourth "JC 3" true).halted = false) := by
  refine ⟨⟨?_, ?_, ?_⟩, ?_, ?_, ?_, ?_⟩ <;> decide

/-- The empty text holds no jump and never faults. -/
theorem witness_JumpFreeRunEnds :
    (∀ line ∈ splitLines [], ∀ a, decode Params.default line ≠ .ok (.jmp a) ∧
      decode Params.default line ≠ .ok (.jc a)) ∧ FaultFree Params.default [] := by
  constructor
  · intro line h a
    rw [show line = [] by simpa [splitLines] using h]
    exact ⟨nofun, nofun⟩
  · intro k f
    cases k with
    | zero =>
      rw [show runText Params.default 0 [] = .outOfSteps by decide]
      nofun
    | succ k =>
      rw [runText, runFor_succ_of_next (t := done) (by decide) rfl,
        runFor_of_ended (r := .exhausted []) (by decide)]
      nofun

end Sys2Proof.Tests
end

section
/-! PROOFS of the statements of 10_state.md: the run's result text, what reads and writes the carry
flag, and what reads and writes the output buffer. -/

namespace Sys2Proof.Machine

variable {s t : State} {i : Instr}

/-! ### The result of a run that has ended (10_state.md R33) -/

theorem ended_of_halted (h : s.halted = true) : s.ended = some (.halted s.outputText) := by
  simp [State.ended, h]

theorem ended_of_past_end (h : s.halted = false) (hpc : s.program.length ≤ s.pc) :
    s.ended = some (.exhausted s.outputText) := by
  simp [State.ended, h, hpc]

theorem joinLines_cons (e : Text) (es : List Text) :
    joinLines (e :: es) = e ++ es.flatMap (fun x => '\n' :: x) := by
  induction es generalizing e with
  | nil => simp [joinLines]
  | cons m es ih => simp [joinLines, ih m]

/-- Settles O4: a run that has ended answers `State.ended` under every ceiling, and the join is the
first entry followed by the other entries, each behind a line feed. -/
theorem runResultJoinsOutput : Obligations.RunResultJoinsOutput := by
  intro s
  refine ⟨fun hh k => runFor_of_ended (ended_of_halted hh) k,
    fun hh hpc k => runFor_of_ended (ended_of_past_end hh hpc) k, fun ho => ?_, fun e es ho => ?_⟩
  · rw [State.outputText, ho, joinLines]
  · rw [State.outputText, ho, joinLines_cons]

/-! ### What an operand reads -/

/-- A value operand reads the register file and no other part of the state (30_encoding.md R73). -/
theorem operandValue_of_regs (h : t.regs = s.regs) (o : Operand) :
    operandValue o t = operandValue o s := by
  cases o with
  | reg r => exact State.reg_of_regs h r
  | lit v => rfl

/-! ### The writers of carry (10_state.md R24) -/

theorem exec_add_carry {d : Reg} {src : Operand} (h : exec (.add d src) s = .next t) :
    t.carry = decide (s.params.addCarryLimit < t.reg d) := by
  cases h
  simp [State.reg]

theorem exec_sub_carry {d : Reg} {src : Operand} (h : exec (.sub d src) s = .next t) :
    t.carry = decide (t.reg d < s.params.subCarryLimit) := by
  cases h
  simp [State.reg]

theorem exec_keeps_carry (hi : ∀ d src, i ≠ .add d src ∧ i ≠ .sub d src)
    (h : exec i s = .next t) : t.carry = s.carry := by
  rcases exec_next h with ⟨_, _, _, rfl⟩ | ⟨d, src, hadd, _⟩ | ⟨d, src, hsub, _⟩ |
    ⟨_, _, _, rfl⟩ | ⟨_, _, _, _, rfl⟩ | ⟨_, _, rfl⟩ | ⟨_, _, _, rfl⟩ | ⟨_, _, _, _, rfl⟩ |
    ⟨_, _, _, rfl⟩ | ⟨_, rfl⟩ | ⟨_, rfl⟩
  any_goals rfl
  · exact absurd hadd (hi d src).1
  · exact absurd hsub (hi d src).2

/-! ### The reader of carry (10_state.md R24, R26) -/

theorem eraseCarry_jumpTo (a : Int) (s : State) (c : Bool) :
    eraseCarry (jumpTo a (s.setCarry c)) = eraseCarry (jumpTo a s) := by
  unfold jumpTo
  split <;> rfl

/-- Apart from carry itself, what an instruction other than `JC` does is the same for either carry:
its operands come from the registers, and its jump and its faults from its operands. -/
theorem eraseCarry_exec_setCarry (hi : ∀ a, i ≠ .jc a) (s : State) (c : Bool) :
    eraseCarry (exec i (s.setCarry c)) = eraseCarry (exec i s) := by
  have hval (o : Operand) : operandValue o (s.setCarry c) = operandValue o s :=
    operandValue_of_regs rfl o
  cases i with
  | mov d src | add d src | sub d src | mul d src => cases src <;> rfl
  | div d src =>
    simp only [exec, execDiv, hval]
    split <;> rfl
  | jmp a => simp only [exec, execJmp, hval, eraseCarry_jumpTo]
  | jc a => exact absurd rfl (hi a)
  | prn r | hlt | blank => rfl

theorem exec_jc_regs {a : Operand} (h : exec (.jc a) s = .next t) : t.regs = s.regs := by
  simp only [exec, execJc] at h
  split at h
  · obtain ⟨_, rfl⟩ := jumpTo_next.mp h
    rfl
  · cases h
    rfl

theorem regs_eq_of_eraseCarry_eq
    (h : eraseCarry (.next s) = eraseCarry (.next t)) : s.regs = t.regs := by
  simp only [eraseCarry, Host.Outcome.next.injEq] at h
  simpa using congrArg State.regs h

/-- Settles O40, from the two writers, the frame of every other instruction, and the independence
of carry of every instruction but `JC`. -/
theorem carryWrittenByAddSubReadByJc : Obligations.CarryWrittenByAddSubReadByJc := by
  refine ⟨default_addCarryLimit, default_subCarryLimit, fun i s t h => ⟨?_, ?_, ?_⟩,
    fun i s c hi => eraseCarry_exec_setCarry hi s c⟩
  · rintro d src rfl
    exact exec_add_carry h
  · rintro d src rfl
    exact exec_sub_carry h
  · exact fun hi => exec_keeps_carry hi h

/-- Settles O41: `JC` writes no register, and every other instruction does the same apart from
carry for either carry. -/
theorem carryNeverChangesRegisters : Obligations.CarryNeverChangesRegisters := by
  intro i s t t' c h h'
  by_cases hjc : ∃ a, i = .jc a
  · obtain ⟨a, rfl⟩ := hjc
    exact (exec_jc_regs h).trans (exec_jc_regs h').symm
  · have herase := eraseCarry_exec_setCarry (not_exists.mp hjc) s c
    rw [State.setCarry, h, h'] at herase
    exact (regs_eq_of_eraseCarry_eq herase).symm

/-! ### The output buffer (10_state.md R32) -/

theorem exec_prn_out {r : Reg} (h : exec (.prn r) s = .next t) :
    t.out = s.out ++ [prnLine r (s.reg r)] := by
  cases h
  rfl

theorem exec_hlt_out (h : exec .hlt s = .next t) : t.out = s.out ++ [haltMessage] := by
  cases h
  rfl

theorem exec_keeps_out (hp : ∀ r, i ≠ .prn r) (hh : i ≠ .hlt) (h : exec i s = .next t) :
    t.out = s.out := by
  rcases exec_next h with ⟨_, _, _, rfl⟩ | ⟨_, _, _, rfl⟩ | ⟨_, _, _, rfl⟩ | ⟨_, _, _, rfl⟩ |
    ⟨_, _, _, _, rfl⟩ | ⟨r, hprn, _⟩ | ⟨_, _, _, rfl⟩ | ⟨_, _, _, _, rfl⟩ | ⟨_, _, _, rfl⟩ |
    ⟨hhlt, _⟩ | ⟨_, rfl⟩
  any_goals rfl
  · exact absurd hprn (hp r)
  · exact absurd hhlt hh

theorem eraseOut_jumpTo (a : Int) (s : State) (o : List Text) :
    eraseOut (jumpTo a { s with out := o }) = eraseOut (jumpTo a s) := by
  unfold jumpTo
  split <;> rfl

/-- Apart from the output itself, what an instruction does is the same for every output buffer: its
operands come from the registers, and the choice of `JC` from carry. -/
theorem eraseOut_exec_out (i : Instr) (s : State) (o : List Text) :
    eraseOut (exec i { s with out := o }) = eraseOut (exec i s) := by
  have hval (x : Operand) : operandValue x { s with out := o } = operandValue x s :=
    operandValue_of_regs rfl x
  cases i with
  | mov d src | add d src | sub d src | mul d src => cases src <;> rfl
  | div d src =>
    simp only [exec, execDiv, hval]
    split <;> rfl
  | jmp a => simp only [exec, execJmp, hval, eraseOut_jumpTo]
  | jc a =>
    simp only [exec, execJc, hval]
    split
    · exact eraseOut_jumpTo _ s o
    · rfl
  | prn r | hlt | blank => rfl

/-- Settles O44, from the two writers of the output buffer, the frame of every other instruction,
and the independence of every instruction of the buffer. -/
theorem outputIsAppendOnly : Obligations.OutputIsAppendOnly := by
  refine ⟨fun i s t h => ⟨?_, fun hp hh => exec_keeps_out hp hh h⟩, eraseOut_exec_out⟩
  rintro (⟨r, rfl⟩ | rfl)
  · exact ⟨_, exec_prn_out h⟩
  · exact ⟨_, exec_hlt_out h⟩

end Sys2Proof.Machine
end

section
/-! PROOFS of the statements of 20_memory.md: the program store is never written. -/

namespace Sys2Proof.Machine

variable {s t : State}

/-- A step that completes runs one instruction or none, and no instruction touches the program or
the parameters. -/
theorem step_program (h : step s = .next t) : t.program = s.program ∧ t.params = s.params := by
  rcases step_next h with ⟨_, rfl⟩ | ⟨_, _, rfl⟩ | ⟨_, _, _, _, _, hexec⟩
  · exact ⟨rfl, rfl⟩
  · exact ⟨rfl, rfl⟩
  · exact exec_program hexec

theorem runSteps_program {k : Nat} (h : runSteps k s = .next t) : t.program = s.program :=
  runSteps_keeps (fun u => u.program = s.program)
    (fun _ _ hu hstep => (step_program hstep).1.trans hu) k s t rfl h

/-- Settles O45: each step keeps the program, so after any number of them it is still the lines of
the host's text, and the fetch reads it at the pc (20_memory.md R51). -/
theorem programIsImmutable : Obligations.ProgramIsImmutable := by
  refine ⟨fun s t h => step_program h, fun p text k t h => ?_⟩
  have hprogram : t.program = splitLines text := runSteps_program h
  rw [State.fetch, hprogram]

end Sys2Proof.Machine
end

section
/-! PROOFS of the statements of 30_encoding.md: the tokenizer, the opcode and register names, the
value operand, and the blank line. -/

namespace Sys2Proof.Machine

variable {p : Params} {line t tok : Text} {args : List Text} {op : Opcode} {i : Instr} {c : Cause}

/-! ### Tokens (30_encoding.md R63, R64) -/

@[simp] theorem tokens_nil : tokens [] = [] := rfl

/-- Whitespace in front of a line adds no token (30_encoding.md R61). -/
theorem tokens_spaces {ws : Text} (hws : ∀ c ∈ ws, isSpace c = true) (rest : Text) :
    tokens (ws ++ rest) = tokens rest := by
  induction ws with
  | nil => rfl
  | cons c cs ih =>
    obtain ⟨hc, hcs⟩ := List.forall_mem_cons.mp hws
    exact (tokens_space hc _).trans (ih hcs)

theorem tokens_of_blank (h : ∀ c ∈ line, isSpace c = true) : tokens line = [] := by
  simpa using tokens_spaces h []

/-- A maximal run in front of a line is its first token. -/
theorem tokens_token_append (hne : tok ≠ []) (htok : ∀ c ∈ tok, isSpace c = false) {rest : Text}
    (hrest : ∀ c ∈ rest.head?, isSpace c = true) : tokens (tok ++ rest) = tok :: tokens rest := by
  cases rest with
  | nil => simpa using tokens_token_end hne htok
  | cons b bs =>
    have hb : isSpace b = true := hrest b rfl
    rw [tokens_token_space hne htok hb, tokens_space hb]

theorem tokens_eq_of_tokenized {ts : List Text} (h : Tokenized line ts) : tokens line = ts := by
  induction h with
  | nil ws hws => exact tokens_of_blank hws
  | cons ws tok rest ts hws hne htok hrest _ ih =>
    rw [List.append_assoc, tokens_spaces hws, tokens_token_append hne htok hrest, ih]

/-- The reading of a line may begin with one more whitespace character. -/
theorem tokenized_space_cons {b : Char} (hb : isSpace b = true) {ts : List Text}
    (h : Tokenized line ts) : Tokenized (b :: line) ts := by
  cases h with
  | nil _ hws => exact .nil (b :: line) (List.forall_mem_cons.mpr ⟨hb, hws⟩)
  | cons ws tok rest ts hws hne htok hrest hts =>
    exact .cons (b :: ws) tok rest ts (List.forall_mem_cons.mpr ⟨hb, hws⟩) hne htok hrest hts

/-- A run in front of a line whose tokens are known is one more token, or none when it is empty. -/
theorem tokenized_consToken {run rest : Text} {ts : List Text}
    (hrun : ∀ c ∈ run, isSpace c = false) (hrest : ∀ c ∈ rest.head?, isSpace c = true)
    (h : Tokenized rest ts) : Tokenized (run ++ rest) (consToken run ts) := by
  cases run with
  | nil => exact h
  | cons b bs =>
    exact .cons [] (b :: bs) rest ts (by simp) (List.cons_ne_nil b bs) hrun hrest h

/-- The scanner cuts a text into the run it begins with and a rest whose tokens it has found. -/
theorem scan_spec (line : Text) :
    (∀ c ∈ (scan line).1, isSpace c = false) ∧
    ∃ rest, line = (scan line).1 ++ rest ∧ (∀ c ∈ rest.head?, isSpace c = true) ∧
      Tokenized rest (scan line).2 := by
  induction line with
  | nil => exact ⟨by simp [scan], [], rfl, by simp, .nil [] (by simp)⟩
  | cons b bs ih =>
    obtain ⟨hrun, rest, hline, hrest, hts⟩ := ih
    by_cases hb : isSpace b = true
    · have htail := tokenized_consToken hrun hrest hts
      rw [← hline] at htail
      simp only [scan, hb, if_true]
      exact ⟨by simp, b :: bs, rfl, by simpa using hb, tokenized_space_cons hb htail⟩
    · simp only [scan, hb, Bool.false_eq_true, if_false]
      exact ⟨List.forall_mem_cons.mpr ⟨by simpa using hb, hrun⟩, rest,
        congrArg (b :: ·) hline, hrest, hts⟩

theorem tokenized_tokens (line : Text) : Tokenized line (tokens line) := by
  obtain ⟨hrun, rest, hline, hrest, hts⟩ := scan_spec line
  have h := tokenized_consToken hrun hrest hts
  rwa [← hline] at h

/-- Settles O5: the tokenizer's answer is a reading of the line into maximal runs, and a line has no
other reading. -/
theorem tokensAreMaximalRuns : Obligations.TokensAreMaximalRuns :=
  ⟨fun line _ => ⟨fun h => h ▸ tokenized_tokens line, tokens_eq_of_tokenized⟩, by decide⟩

theorem tokens_eq_nil_iff : tokens line = [] ↔ ∀ c ∈ line, isSpace c = true := by
  refine ⟨fun h => ?_, tokens_of_blank⟩
  have hnil : Tokenized line [] := h ▸ tokenized_tokens line
  cases hnil with
  | nil _ hws => exact hws

/-! ### Names (30_encoding.md R69, R70, R77) -/

theorem regOf_eq_some {r : Reg} : regOf tok = some r ↔ tok = r.name := by
  refine ⟨fun h => ?_, fun h => h ▸ regOf_name r⟩
  have hname := List.find?_some (p := fun r : Reg => r.name == tok) h
  exact (beq_iff_eq.mp hname).symm

theorem regOf_eq_none : regOf tok = none ↔ ∀ r : Reg, tok ≠ r.name := by
  simp [Option.eq_none_iff_forall_ne_some, regOf_eq_some]

/-- Settles O13: the register a token names is the one whose name it is, and the rule's five tokens
are no names. -/
theorem registerNamesAreExact : Obligations.RegisterNamesAreExact :=
  ⟨by decide, fun _ _ => regOf_eq_some, by decide⟩

theorem opcodeOf_eq_none : opcodeOf t = none ↔ ∀ op : Opcode, asciiUpper t ≠ op.name := by
  simp [Option.eq_none_iff_forall_ne_some, opcodeOf_eq_some]

theorem mem_opcodes (op : Opcode) : op ∈ opcodes := by
  cases op <;> decide

theorem opcodeOf_eq_none_iff_notMem :
    opcodeOf t = none ↔ asciiUpper t ∉ opcodes.map Opcode.name := by
  simp [opcodeOf_eq_none, mem_opcodes, eq_comm (b := asciiUpper t)]

/-! ### Operand decoders (30_encoding.md R72, R73, R75) -/

theorem regname_error (h : regname tok = .error c) : c = .invalidRegister (stripComma tok) := by
  unfold regname at h
  split at h <;> cases h
  rfl

@[simp] theorem valueOperand_name (r : Reg) : valueOperand r.name = .ok (.reg r) := by
  simp [valueOperand]

theorem valueOperand_of_parseLit {v : Int} (hreg : ∀ r : Reg, tok ≠ r.name)
    (hlit : parseLit tok = some v) : valueOperand tok = .ok (.lit v) := by
  simp [valueOperand, regOf_eq_none.mpr hreg, hlit]

theorem valueOperand_of_parseLit_none (hreg : ∀ r : Reg, tok ≠ r.name)
    (hlit : parseLit tok = none) : valueOperand tok = .error (.invalidOperand tok) := by
  simp [valueOperand, regOf_eq_none.mpr hreg, hlit]

theorem valueOperand_error (h : valueOperand tok = .error c) : c = .invalidOperand tok := by
  unfold valueOperand at h
  split at h
  · cases h
  · split at h <;> cases h
    rfl

theorem addrOperand_error (h : addrOperand p tok = .error c) : c = .invalidOperand tok := by
  unfold addrOperand at h
  split at h
  · split at h <;> cases h
    rfl
  · exact valueOperand_error h

/-- Settles O15: one equation of the value-operand decoder per branch of the rule, and the rule's
two tokens that no branch accepts. -/
theorem valueOperandResolves : Obligations.ValueOperandResolves :=
  ⟨fun r s => ⟨valueOperand_name r, operandValue_reg r s⟩,
    fun _ v s hreg hlit => ⟨valueOperand_of_parseLit hreg hlit, operandValue_lit v s⟩,
    fun _ => valueOperand_of_parseLit_none, by decide, by decide⟩

/-! ### What the formats answer (30_encoding.md R76) -/

theorem decodeT3_ok {mk : Reg → Operand → Instr} {dst src : Text}
    (h : decodeT3 mk dst src = .ok i) :
    ∃ d v, regname dst = .ok d ∧ valueOperand src = .ok v ∧ i = mk d v := by
  unfold decodeT3 at h
  split at h
  · cases h
  · split at h <;> cases h
    exact ⟨_, _, ‹_›, ‹_›, rfl⟩

theorem decodeT3_error {mk : Reg → Operand → Instr} {dst src : Text}
    (h : decodeT3 mk dst src = .error c) :
    c = .invalidRegister (stripComma dst) ∨ c = .invalidOperand src := by
  unfold decodeT3 at h
  split at h
  · cases h
    exact .inl (regname_error ‹_›)
  · split at h <;> cases h
    exact .inr (valueOperand_error ‹_›)

theorem decodeT2R_ok {mk : Reg → Instr} (h : decodeT2R mk tok = .ok i) :
    ∃ r, regname tok = .ok r ∧ i = mk r := by
  unfold decodeT2R at h
  split at h <;> cases h
  exact ⟨_, ‹_›, rfl⟩

theorem decodeT2R_error {mk : Reg → Instr} (h : decodeT2R mk tok = .error c) :
    c = .invalidRegister (stripComma tok) := by
  unfold decodeT2R at h
  split at h <;> cases h
  exact regname_error ‹_›

theorem decodeT2A_ok {mk : Operand → Instr} (h : decodeT2A p mk tok = .ok i) :
    ∃ a, addrOperand p tok = .ok a ∧ i = mk a := by
  unfold decodeT2A at h
  split at h <;> cases h
  exact ⟨_, ‹_›, rfl⟩

theorem decodeT2A_error {mk : Operand → Instr} (h : decodeT2A p mk tok = .error c) :
    c = .invalidOperand tok := by
  unfold decodeT2A at h
  split at h <;> cases h
  exact addrOperand_error ‹_›

/-- Every instruction an opcode's operands can give. -/
theorem decodeOperands_ok (h : decodeOperands p line op args = .ok i) :
    (∃ d v, i ∈ [Instr.mov d v, .add d v, .sub d v, .mul d v, .div d v]) ∨
    (∃ r, i = .prn r) ∨
    (∃ tok a, addrOperand p tok = .ok a ∧ (i = .jmp a ∨ i = .jc a)) ∨
    i = .hlt := by
  unfold decodeOperands at h
  split at h
  iterate 5
    · obtain ⟨d, v, _, _, rfl⟩ := decodeT3_ok h
      exact .inl ⟨d, v, by simp⟩
  · obtain ⟨r, _, rfl⟩ := decodeT2R_ok h
    exact .inr (.inl ⟨r, rfl⟩)
  iterate 2
    · obtain ⟨a, haddr, rfl⟩ := decodeT2A_ok h
      exact .inr (.inr (.inl ⟨_, a, haddr, by simp⟩))
  · cases h
    exact .inr (.inr (.inr rfl))
  · cases h

/-- Every error an opcode's operands can raise, the detail taken from one of them. -/
theorem decodeOperands_error (h : decodeOperands p line op args = .error c) :
    c = .malformedInstruction line ∨
    (∃ tok ∈ args, c = .invalidRegister (stripComma tok)) ∨
    (∃ tok ∈ args, c = .invalidOperand tok) := by
  unfold decodeOperands at h
  split at h
  iterate 5
    · rcases decodeT3_error h with rfl | rfl
      · exact .inr (.inl ⟨_, by simp, rfl⟩)
      · exact .inr (.inr ⟨_, by simp, rfl⟩)
  · exact .inr (.inl ⟨_, by simp, decodeT2R_error h⟩)
  iterate 2
    · exact .inr (.inr ⟨_, by simp, decodeT2A_error h⟩)
  · cases h
  · cases h
    exact .inl rfl

/-! ### What a line decodes to (30_encoding.md R76) -/

theorem decode_of_tokens_nil (h : tokens line = []) : decode p line = .ok .blank := by
  simp [decode, h]

theorem decode_of_opcodeOf_none (ht : tokens line = t :: args) (hop : opcodeOf t = none) :
    decode p line = .error (.unknownInstruction t) := by
  simp [decode, ht, hop]

/-- A line with an opcode is refused for its number of tokens, or its operands are decoded. -/
theorem decode_of_opcodeOf_some (ht : tokens line = t :: args) (hop : opcodeOf t = some op) :
    decode p line = .error (.malformedInstruction line) ∨
    decode p line = decodeOperands p line op args := by
  simp only [decode, ht, hop]
  split
  · exact .inl rfl
  · split
    · exact .inl rfl
    · exact .inr rfl

/-- Only a line without tokens decodes to the blank instruction: no opcode's operands give it. -/
theorem decode_eq_blank_iff : decode p line = .ok .blank ↔ tokens line = [] := by
  refine ⟨fun h => ?_, decode_of_tokens_nil⟩
  rcases ht : tokens line with _ | ⟨t, args⟩
  · rfl
  · exfalso
    rcases hop : opcodeOf t with _ | op
    · rw [decode_of_opcodeOf_none ht hop] at h
      cases h
    · rcases decode_of_opcodeOf_some (p := p) ht hop with hd | hd <;> rw [hd] at h
      · cases h
      · simpa using decodeOperands_ok h

/-- The opcode test alone raises `UnknownInstruction`: no operand does. -/
theorem decode_eq_unknown_iff (ht : tokens line = t :: args) :
    decode p line = .error (.unknownInstruction t) ↔ opcodeOf t = none := by
  refine ⟨fun h => ?_, decode_of_opcodeOf_none ht⟩
  rcases hop : opcodeOf t with _ | op
  · rfl
  · exfalso
    rcases decode_of_opcodeOf_some (p := p) ht hop with hd | hd <;> rw [hd] at h
    · cases h
    · simpa using decodeOperands_error h

/-- Settles O9: `UnknownInstruction` is raised exactly when no opcode has the folded token as its
name, and the rule's examples are lines whose first token selects no opcode. -/
theorem unknownOpcodeRaises : Obligations.UnknownOpcodeRaises := by
  refine ⟨fun p line t args ht =>
    (decode_eq_unknown_iff ht).trans opcodeOf_eq_none_iff_notMem, fun p => ⟨?_, ?_, ?_, ?_, ?_⟩⟩
  · exact decode_of_opcodeOf_none (args := ["note".toList]) (by decide) (by decide)
  · exact decode_of_opcodeOf_none (args := ["note".toList]) (by decide) (by decide)
  · exact decode_of_opcodeOf_none (args := []) (by decide) (by decide)
  · exact decode_of_opcodeOf_none (args := []) (by decide) (by decide)
  · exact decode_of_opcodeOf_none (args := ["5".toList]) (by decide) (by decide)

/-! ### The blank line (30_encoding.md R64, 42_control_transfer.md R163) -/

theorem step_of_decode_ok {s : State} (hh : s.halted = false) (hf : s.fetch = some line)
    (hd : decode s.params line = .ok i) : step s = exec i s := by
  simp [step, loopStep, dispatch, hh, hf, hd]

/-- Settles O6: a line of whitespace has no tokens and decodes to the blank instruction, so its step
is that instruction's advance. -/
theorem blankLineIsNoOp : Obligations.BlankLineIsNoOp :=
  ⟨fun _ _ => decode_eq_blank_iff, fun _ => tokens_eq_nil_iff, fun _ => rfl,
    fun _ _ hh hf hws => step_of_decode_ok hh hf (decode_of_tokens_nil (tokens_of_blank hws))⟩

end Sys2Proof.Machine
end

section
/-! PROOFS of the statements of 40_alu.md: the results and flags of `ADD`, `SUB` and `MUL`, and the
division by 0. -/

namespace Sys2Proof.Machine

variable {s : State}

/-! ### Reading a register of the state an instruction leaves -/

@[simp] theorem State.reg_setReg_same (s : State) (r : Reg) (v : Int) : (s.setReg r v).reg r = v :=
  RegFile.read_write_same s.regs r v

@[simp] theorem State.reg_setCarry (s : State) (c : Bool) (r : Reg) :
    (s.setCarry c).reg r = s.reg r := rfl

@[simp] theorem State.reg_advance (s : State) (r : Reg) : s.advance.reg r = s.reg r := rfl

/-! ### What each instruction answers -/

theorem exec_add (d : Reg) (src : Operand) (s : State) :
    exec (.add d src) s = .next ((s.setReg d (s.reg d + operandValue src s)).setCarry
      (addCarry s.params (s.reg d + operandValue src s))).advance := rfl

theorem exec_sub (d : Reg) (src : Operand) (s : State) :
    exec (.sub d src) s = .next ((s.setReg d (s.reg d - operandValue src s)).setCarry
      (subCarry s.params (s.reg d - operandValue src s))).advance := rfl

theorem exec_mul (d : Reg) (src : Operand) (s : State) :
    exec (.mul d src) s = .next (s.setReg d (s.reg d * operandValue src s)).advance := rfl

theorem exec_div_of_zero (d : Reg) {src : Operand} (h : operandValue src s = 0) :
    exec (.div d src) s = .fault (.lineError (s.pc + 1) .divisionByZero) := by
  simp [exec, execDiv, h, raise]

/-! ### A running state whose line raises -/

theorem ended_of_fetch {line : Text} (hh : s.halted = false) (hf : s.fetch = some line) :
    s.ended = none := by
  have hpc : s.pc < s.program.length := (List.getElem?_eq_some_iff.mp hf).1
  exact ended_eq_none.mpr ⟨hh, hpc⟩

/-- A run whose next line decodes to an instruction that raises ends in `Faulted` with that report
(60_exceptions.md R205). -/
theorem runFor_succ_of_exec_fault {line : Text} {i : Instr} {f : Fault} (hh : s.halted = false)
    (hf : s.fetch = some line) (hd : decode s.params line = .ok i) (he : exec i s = .fault f)
    (k : Nat) : runFor (k + 1) s = .faulted f :=
  runFor_succ_of_fault (ended_of_fetch hh hf) ((step_of_decode_ok hh hf hd).trans he) k

/-! ### The statements -/

/-- Settles O24: the sum is what the destination reads after the write, and the flag is computed
from it. -/
theorem addStoresSumAndCarry : Obligations.AddStoresSumAndCarry := by
  refine ⟨default_addCarryLimit, fun d src s => ⟨_, exec_add d src s, ?_, ?_, ?_⟩⟩
  · rw [State.reg_advance, State.reg_setCarry, State.reg_setReg_same]
  · rw [exec_add_carry (exec_add d src s), decide_eq_true_iff]
  · rfl

/-- Settles O25: the difference is what the destination reads after the write, and the flag is
computed from it. -/
theorem subStoresDifferenceAndCarry : Obligations.SubStoresDifferenceAndCarry := by
  refine ⟨default_subCarryLimit, fun d src s => ⟨_, exec_sub d src s, ?_, ?_, ?_⟩⟩
  · rw [State.reg_advance, State.reg_setCarry, State.reg_setReg_same]
  · rw [exec_sub_carry (exec_sub d src s), decide_eq_true_iff]
  · rfl

/-- Settles O26: the product is what the destination reads after the write, the only one but the
advance. -/
theorem mulStoresExactProduct : Obligations.MulStoresExactProduct := by
  refine fun d src s => ⟨_, exec_mul d src s, ?_, rfl, rfl⟩
  rw [State.reg_advance, State.reg_setReg_same]

/-- Settles O28: the divisor is tested before anything is written, and the run reports the fault of
the step. -/
theorem divByZeroRaises : Obligations.DivByZeroRaises :=
  ⟨fun d _ _ h0 => exec_div_of_zero d h0, fun d _ _ _ k h0 hh hf hd =>
    runFor_succ_of_exec_fault hh hf hd (exec_div_of_zero d h0) k⟩

end Sys2Proof.Machine
end

section
/-! PROOFS of the statements of 41_output_and_halt.md: what `PRN` and `HLT` append, and where the
halt message stands in the output text of a run that has ended. -/

namespace Sys2Proof.Machine

variable {s t : State} {i : Instr} {line out : Text}

/-! ### The entry of `PRN` (41_output_and_halt.md R142, R147) -/

theorem dec_no_newline (v : Int) : '\n' ∉ dec v := by
  intro hmem
  rcases dec_chars v _ hmem with h | ⟨d, hd, h⟩
  · exact absurd h (by decide)
  · exact (digitChar_facts d hd).2.2.2.1 h.symm

theorem prnLine_no_newline (r : Reg) (v : Int) : '\n' ∉ prnLine r v := by
  have hname : '\n' ∉ r.name := by cases r <;> decide
  simp [prnLine, hname, dec_no_newline v]

/-- An entry of `PRN` begins with the `R` of a register, the halt message does not. -/
theorem prnLine_ne_haltMessage (r : Reg) (v : Int) : prnLine r v ≠ haltMessage := by
  cases r <;> simp [prnLine, Reg.name, haltMessage]

theorem haltMessage_no_newline : '\n' ∉ haltMessage := by decide

theorem haltMessage_not_mem_of_prnLines {es : List Text} (h : ∀ e ∈ es, IsPrnLine e) :
    haltMessage ∉ es := by
  intro hmem
  obtain ⟨r, v, heq⟩ := h _ hmem
  exact prnLine_ne_haltMessage r v heq.symm

theorem no_newline_of_prnLines {es : List Text} (h : ∀ e ∈ es, IsPrnLine e) :
    ∀ e ∈ es, '\n' ∉ e := by
  intro e he
  obtain ⟨r, v, rfl⟩ := h e he
  exact prnLine_no_newline r v

/-- Settles O31: the entry is `prnLine` of the register and its value. -/
theorem prnAppendsOneEntry : Obligations.PrnAppendsOneEntry := by
  refine fun r s => ⟨prnLine r (s.reg r), rfl, ?_, prnLine_no_newline r _⟩
  simp [prnLine]

/-! ### Splitting joined entries gives them back (10_state.md R33, 30_encoding.md R60) -/

theorem splitLines_of_no_newline (h : '\n' ∉ line) : splitLines line = [line] := by
  induction line with
  | nil => rfl
  | cons c cs ih =>
    obtain ⟨hc, hcs⟩ := List.ne_and_not_mem_of_not_mem_cons h
    simp [splitLines, hc.symm, ih hcs]

theorem splitLines_append_newline (h : '\n' ∉ line) (rest : Text) :
    splitLines (line ++ '\n' :: rest) = line :: splitLines rest := by
  induction line with
  | nil => simp [splitLines]
  | cons c cs ih =>
    obtain ⟨hc, hcs⟩ := List.ne_and_not_mem_of_not_mem_cons h
    simp [splitLines, hc.symm, ih hcs]

theorem splitLines_joinLines {es : List Text} (hne : es ≠ []) (h : ∀ e ∈ es, '\n' ∉ e) :
    splitLines (joinLines es) = es := by
  induction es with
  | nil => exact absurd rfl hne
  | cons e es ih =>
    obtain ⟨he, hes⟩ := List.forall_mem_cons.mp h
    cases es with
    | nil => exact splitLines_of_no_newline he
    | cons m ms =>
      rw [joinLines, splitLines_append_newline he, ih (List.cons_ne_nil m ms) hes]

/-! ### `HLT` alone appends the message and halts (41_output_and_halt.md R145, R147) -/

theorem exec_hlt_halted (h : exec .hlt s = .next t) : t.halted = true := by
  cases h
  rfl

theorem exec_keeps_halted (hh : i ≠ .hlt) (h : exec i s = .next t) : t.halted = s.halted := by
  rcases exec_next h with ⟨_, _, _, rfl⟩ | ⟨_, _, _, rfl⟩ | ⟨_, _, _, rfl⟩ | ⟨_, _, _, rfl⟩ |
    ⟨_, _, _, _, rfl⟩ | ⟨_, _, rfl⟩ | ⟨_, _, _, rfl⟩ | ⟨_, _, _, _, rfl⟩ | ⟨_, _, _, rfl⟩ |
    ⟨hhlt, _⟩ | ⟨_, rfl⟩
  any_goals rfl
  exact absurd hhlt hh

/-- An instruction other than `HLT` appends an entry of `PRN` or nothing. -/
theorem exec_out_of_ne_hlt (hh : i ≠ .hlt) (h : exec i s = .next t) :
    (∃ e, IsPrnLine e ∧ t.out = s.out ++ [e]) ∨ t.out = s.out := by
  by_cases hp : ∃ r, i = .prn r
  · obtain ⟨r, rfl⟩ := hp
    exact .inl ⟨_, ⟨r, s.reg r, rfl⟩, exec_prn_out h⟩
  · exact .inr (exec_keeps_out (not_exists.mp hp) hh h)

theorem exec_appends_haltMessage_iff (h : exec i s = .next t) :
    t.out = s.out ++ [haltMessage] ↔ i = .hlt := by
  refine ⟨fun hout => ?_, fun hi => exec_hlt_out (hi ▸ h)⟩
  by_contra hh
  rcases exec_out_of_ne_hlt hh h with ⟨e, ⟨r, v, rfl⟩, he⟩ | he
  · exact prnLine_ne_haltMessage r v (by simpa [he] using hout)
  · simp [he] at hout

/-! ### The shape of the output along a run (10_state.md R32) -/

theorem outputOk_of_halted (hh : s.halted = true) :
    s.OutputOk ↔ ∃ es, s.out = es ++ [haltMessage] ∧ ∀ e ∈ es, IsPrnLine e := by
  simp [State.OutputOk, hh]

theorem outputOk_of_not_halted (hh : s.halted = false) :
    s.OutputOk ↔ ∀ e ∈ s.out, IsPrnLine e := by
  simp [State.OutputOk, hh]

theorem start_outputOk (p : Params) (text : Text) : (State.start p text).OutputOk :=
  (outputOk_of_not_halted rfl).mpr nofun

theorem exec_keeps_outputOk (hh : s.halted = false) (hs : s.OutputOk) (h : exec i s = .next t) :
    t.OutputOk := by
  rw [outputOk_of_not_halted hh] at hs
  by_cases hi : i = .hlt
  · subst hi
    exact (outputOk_of_halted (exec_hlt_halted h)).mpr ⟨s.out, exec_hlt_out h, hs⟩
  · rw [outputOk_of_not_halted ((exec_keeps_halted hi h).trans hh)]
    rcases exec_out_of_ne_hlt hi h with ⟨e, he, hout⟩ | hout <;> rw [hout]
    · exact List.forall_mem_append.mpr ⟨hs, List.forall_mem_singleton.mpr he⟩
    · exact hs

theorem step_keeps_outputOk (hs : s.OutputOk) (h : step s = .next t) : t.OutputOk := by
  rcases step_next h with ⟨_, rfl⟩ | ⟨_, _, rfl⟩ | ⟨hh, _, _, _, _, hexec⟩
  · exact hs
  · exact hs
  · exact exec_keeps_outputOk hh hs hexec

/-! ### How a run ends (42_control_transfer.md R160, R172) -/

theorem ended_eq_halted (h : s.ended = some (.halted out)) :
    s.halted = true ∧ out = s.outputText := by
  unfold State.ended at h
  split at h
  · exact ⟨‹_›, by simpa using h.symm⟩
  · split at h <;> cases h

theorem ended_eq_exhausted (h : s.ended = some (.exhausted out)) :
    s.halted = false ∧ out = s.outputText := by
  unfold State.ended at h
  split at h
  · cases h
  · split at h <;> cases h
    exact ⟨by simpa using ‹¬s.halted = true›, rfl⟩

/-- Every result of a run is that of an ended state it reaches, or a fault, a refusal or the
ceiling. -/
theorem runFor_cases (k : Nat) (s : State) :
    (∃ j t, runSteps j s = .next t ∧ t.ended = some (runFor k s)) ∨
    (∃ f, runFor k s = .faulted f) ∨ (∃ w, runFor k s = .refused w) ∨
    runFor k s = .outOfSteps := by
  induction k generalizing s with
  | zero =>
    rcases hend : s.ended with _ | r
    · exact .inr (.inr (.inr (runFor_zero_of_running hend)))
    · exact .inl ⟨0, s, rfl, by rw [hend, runFor_of_ended hend]⟩
  | succ k ih =>
    rcases hend : s.ended with _ | r
    · rcases hstep : step s with t | f | w
      · rw [runFor_succ_of_next hend hstep]
        refine (ih t).imp_left ?_
        rintro ⟨j, u, hrun, hu⟩
        exact ⟨j + 1, u, (runSteps_succ_of_next hstep j).trans hrun, hu⟩
      · exact .inr (.inl ⟨f, runFor_succ_of_fault hend hstep k⟩)
      · rw [step] at hstep
        exact .inr (.inr (.inl ⟨w, by simp [runFor, hend, hstep]⟩))
    · exact .inl ⟨0, s, rfl, by rw [hend, runFor_of_ended hend]⟩

/-- A run that ends normally has reached a state with the result it reports, and the output there
is as `PRN` and `HLT` leave it. -/
theorem runText_normal_end {p : Params} {text : Text} {k : Nat} {r : RunResult}
    (h : runText p k text = r) (hr : r = .halted out ∨ r = .exhausted out) :
    ∃ t : State, t.ended = some r ∧ t.OutputOk := by
  rw [runText] at h
  rcases runFor_cases k (State.start p text) with
    ⟨j, t, hrun, hend⟩ | ⟨f, hf⟩ | ⟨w, hw⟩ | ho
  · exact ⟨t, h ▸ hend, runSteps_keeps State.OutputOk (fun _ _ => step_keeps_outputOk) j _ t
      (start_outputOk p text) hrun⟩
  · simp [← h, hf] at hr
  · simp [← h, hw] at hr
  · simp [← h, ho] at hr

/-! ### The message in the output text -/

theorem outputText_lines_of_halted (hh : s.halted = true) (hs : s.OutputOk) :
    ∃ ls, splitLines s.outputText = ls ++ [haltMessage] ∧ haltMessage ∉ ls := by
  obtain ⟨es, hout, hes⟩ := (outputOk_of_halted hh).mp hs
  have hlines : ∀ e ∈ es ++ [haltMessage], '\n' ∉ e := List.forall_mem_append.mpr
    ⟨no_newline_of_prnLines hes, List.forall_mem_singleton.mpr haltMessage_no_newline⟩
  refine ⟨es, ?_, haltMessage_not_mem_of_prnLines hes⟩
  rw [State.outputText, hout, splitLines_joinLines (by simp) hlines]

theorem haltMessage_not_mem_outputText_lines (hh : s.halted = false) (hs : s.OutputOk) :
    haltMessage ∉ splitLines s.outputText := by
  have hes := (outputOk_of_not_halted hh).mp hs
  rw [State.outputText]
  by_cases hout : s.out = []
  · rw [hout]
    decide
  · rw [splitLines_joinLines hout (no_newline_of_prnLines hes)]
    exact haltMessage_not_mem_of_prnLines hes

/-- Settles O54: the shape of the output is kept along the run, so the state where it ends holds the
message last when it is halted and nowhere when it is not, and its lines are the entries. -/
theorem haltMessageOnlyFromHlt : Obligations.HaltMessageOnlyFromHlt := by
  refine ⟨by decide, by decide, fun i s t => exec_appends_haltMessage_iff,
    fun p text out k h => ?_, fun p text out k h => ?_⟩
  · obtain ⟨t, hend, hok⟩ := runText_normal_end h (.inl rfl)
    obtain ⟨hh, rfl⟩ := ended_eq_halted hend
    exact outputText_lines_of_halted hh hok
  · obtain ⟨t, hend, hok⟩ := runText_normal_end h (.inr rfl)
    obtain ⟨hh, rfl⟩ := ended_eq_exhausted hend
    exact haltMessage_not_mem_outputText_lines hh hok

end Sys2Proof.Machine
end

section
/-! PROOFS of the statements of 42_control_transfer.md: where a taken jump leaves the pc, the advance
of every other instruction, and the end of the run after a jump past the last line. -/

namespace Sys2Proof.Machine

variable {s t : State} {i : Instr} {addr : Operand}

/-! ### A taken jump (42_control_transfer.md R166, R169) -/

/-- `JMP`, and `JC` when carry is 1, do the same thing: jump to their operand's value. -/
theorem exec_taken_jump (hi : i = .jmp addr ∨ (i = .jc addr ∧ s.carry = true)) :
    exec i s = jumpTo (operandValue addr s) s := by
  rcases hi with rfl | ⟨rfl, hc⟩
  · rfl
  · simp [exec, execJc, hc]

theorem exec_taken_jump_of_nonneg (hi : i = .jmp addr ∨ (i = .jc addr ∧ s.carry = true))
    (h0 : 0 ≤ operandValue addr s) :
    exec i s = .next (s.setPc (operandValue addr s).toNat) :=
  (exec_taken_jump hi).trans (jumpTo_next.mpr ⟨h0, rfl⟩)

theorem exec_taken_jump_pc (hi : i = .jmp addr ∨ (i = .jc addr ∧ s.carry = true))
    (h : exec i s = .next t) : (t.pc : Int) = operandValue addr s := by
  rw [exec_taken_jump hi] at h
  obtain ⟨h0, rfl⟩ := jumpTo_next.mp h
  exact Int.toNat_of_nonneg h0

/-! ### The advance and the report of everything else (42_control_transfer.md R161) -/

/-- Only a taken jump leaves the pc anywhere but one further. -/
theorem exec_pc_of_not_taken (hjmp : ∀ a, i ≠ .jmp a) (hjc : ∀ a, i = .jc a → s.carry = false)
    (h : exec i s = .next t) : t.pc = s.pc + 1 := by
  rcases exec_next h with ⟨_, _, _, rfl⟩ | ⟨_, _, _, rfl⟩ | ⟨_, _, _, rfl⟩ | ⟨_, _, _, rfl⟩ |
    ⟨_, _, _, _, rfl⟩ | ⟨_, _, rfl⟩ | ⟨a, hi, _⟩ | ⟨a, hi, hc, _⟩ | ⟨_, _, _, rfl⟩ | ⟨_, rfl⟩ |
    ⟨_, rfl⟩
  any_goals rfl
  · exact absurd hi (hjmp a)
  · exact absurd (hjc a hi) (by simp [hc])

theorem exec_fault_line {f : Fault} (h : exec i s = .fault f) :
    ∃ c, f = .lineError (s.pc + 1) c := by
  rcases exec_fault h with ⟨a, _, _, rfl⟩ | ⟨_, _, _, _, rfl⟩
  · exact ⟨.jumpTargetNegative (operandValue a s), rfl⟩
  · exact ⟨.divisionByZero, rfl⟩

/-! ### The statements -/

/-- Settles O35: a taken jump to a target of at least 0 writes the pc and nothing else. -/
theorem takenJumpLeavesTargetInPc : Obligations.TakenJumpLeavesTargetInPc :=
  fun _ _ _ hi h0 => ⟨_, exec_taken_jump_of_nonneg hi h0, Int.toNat_of_nonneg h0, rfl, rfl⟩

/-- Settles O46: a taken jump leaves the operand's value in the pc, which is that value less one and
the advance; every other instruction advances, and every report is of the pc's own line. -/
theorem pcAdvancesByOne : Obligations.PcAdvancesByOne := by
  refine ⟨fun i s t h => ⟨fun a hi => ?_, fun hjmp hjc => exec_pc_of_not_taken hjmp hjc h⟩,
    fun i s f h => exec_fault_line h⟩
  rw [exec_taken_jump_pc hi h, sub_add_cancel]

/-- Settles O38: the target is at least the program's length, so at least 0 and legal, and the state
the jump leaves is not halted and past the last line, which ends the run with the output it had. -/
theorem jumpPastEndExhausts : Obligations.JumpPastEndExhausts := by
  intro addr s i hh hi hN
  have h0 : 0 ≤ operandValue addr s := (Int.natCast_nonneg _).trans hN
  have hpast : s.program.length ≤ (operandValue addr s).toNat := (Int.le_toNat h0).mpr hN
  exact ⟨_, exec_taken_jump_of_nonneg hi h0, Int.toNat_of_nonneg h0, rfl,
    runFor_of_ended (ended_of_past_end hh hpast)⟩

end Sys2Proof.Machine
end

section
/-! PROOFS of the statements of 60_exceptions.md: the report of a line that raises, and the end of
the run there. -/

namespace Sys2Proof.Machine

variable {s : State} {line : Text} {c : Cause}

/-- A running state's line that does not decode raises the decoder's error (60_exceptions.md
R205). -/
theorem step_of_decode_error (hh : s.halted = false) (hf : s.fetch = some line)
    (hd : decode s.params line = .error c) : step s = .fault (.lineError (s.pc + 1) c) := by
  simp [step, loopStep, dispatch, raise, hh, hf, hd]

/-- Settles O47: a line that does not decode faults in the step itself and one that decodes in its
execution; either way the report is of the pc's own line and the run stops with it. -/
theorem raisingEndsTheRun : Obligations.RaisingEndsTheRun := by
  refine fun s line k hh hf => ⟨fun c hd => ?_, fun i f hd he => ?_⟩
  · have hstep := step_of_decode_error hh hf hd
    exact ⟨hstep, runFor_succ_of_fault (ended_of_fetch hh hf) hstep k⟩
  · exact ⟨exec_fault_line he, runFor_succ_of_exec_fault hh hf hd he k⟩

end Sys2Proof.Machine
end

section
/-! PROOFS of the statements of 30_encoding.md about the canonical spelling: what a literal spells,
how a line's number of tokens decides, and that decoding takes back encoding. -/

namespace Sys2Proof.Machine

variable {p : Params} {line t tok : Text} {args : List Text} {op : Opcode} {i : Instr}

/-! ### The number of tokens (30_encoding.md R65, R67) -/

/-- The number of tokens a line of an opcode may have: the required one, and any greater one when
`EXTRA_TOKENS` is ignore. -/
def TokenCountOk (p : Params) (op : Opcode) (n : Nat) : Prop :=
  op.arity ≤ n ∧ (op.arity < n → p.extraTokens = .ignore)

theorem tokenCountOk_arity (p : Params) (op : Opcode) : TokenCountOk p op op.arity :=
  ⟨le_rfl, fun h => absurd h (lt_irrefl _)⟩

theorem decode_of_tokenCountOk (ht : tokens line = t :: args) (hop : opcodeOf t = some op)
    (hn : TokenCountOk p op (args.length + 1)) :
    decode p line = decodeOperands p line op args := by
  obtain ⟨hle, hextra⟩ := hn
  have hfault : ¬ (op.arity < args.length + 1 ∧ p.extraTokens = .fault) :=
    fun ⟨hlt, hf⟩ => nomatch (hextra hlt).symm.trans hf
  simp only [decode, ht, hop]
  rw [if_neg (not_lt.mpr hle), if_neg hfault]

theorem decode_of_not_tokenCountOk (ht : tokens line = t :: args) (hop : opcodeOf t = some op)
    (hn : ¬ TokenCountOk p op (args.length + 1)) :
    decode p line = .error (.malformedInstruction line) := by
  by_cases hfew : args.length + 1 < op.arity
  · simp [decode, ht, hop, hfew]
  · have hmany : op.arity < args.length + 1 ∧ p.extraTokens = .fault := by
      by_contra hok
      refine hn ⟨not_lt.mp hfew, fun hlt => ?_⟩
      cases hx : p.extraTokens with
      | fault => exact absurd ⟨hlt, hx⟩ hok
      | ignore => rfl
    simp [decode, ht, hop, hmany]

/-- A line of exactly the required number of tokens. -/
theorem decode_of_arity (ht : tokens line = t :: args) (hop : opcodeOf t = some op)
    (hn : op.arity = args.length + 1) : decode p line = decodeOperands p line op args :=
  decode_of_tokenCountOk ht hop (hn ▸ tokenCountOk_arity p op)

/-! ### Literals (30_encoding.md R74) -/

theorem isDigit_iff {d : Char} : isDigit d = true ↔ '0' ≤ d ∧ d ≤ '9' := by
  simp only [isDigit, Bool.and_eq_true, decide_eq_true_eq]
  exact Iff.rfl

theorem parseDigits_of_isDigit {ds : Text} (hne : ds ≠ []) (hds : ∀ d ∈ ds, isDigit d = true) :
    parseDigits ds = some (digitsValue 0 ds) :=
  if_pos ⟨hne, List.all_eq_true.mpr hds⟩

theorem parseDigits_eq_some {n : Nat} :
    parseDigits tok = some n ↔
      tok ≠ [] ∧ (∀ d ∈ tok, isDigit d = true) ∧ n = digitsValue 0 tok := by
  refine ⟨fun h => ?_, fun ⟨hne, hds, hn⟩ => hn ▸ parseDigits_of_isDigit hne hds⟩
  unfold parseDigits at h
  split at h
  · obtain ⟨hne, hds⟩ := ‹tok ≠ [] ∧ tok.all isDigit = true›
    cases h
    exact ⟨hne, List.all_eq_true.mp hds, rfl⟩
  · cases h

theorem parseLit_minus (ds : Text) :
    parseLit ('-' :: ds) = (parseDigits ds).map fun n : Nat => -(n : Int) := rfl

theorem parseLit_of_digits {n : Nat} (h : parseDigits tok = some n) :
    parseLit tok = some (n : Int) := by
  unfold parseLit
  split
  · obtain ⟨_, hds, _⟩ := parseDigits_eq_some.mp h
    exact absurd (hds '-' (by simp)) (by decide)
  · simp [h]

theorem parseLit_eq_some {v : Int} :
    parseLit tok = some v ↔
      (∃ n : Nat, parseDigits tok = some n ∧ v = n) ∨
      (∃ (ds : Text) (n : Nat), tok = '-' :: ds ∧ parseDigits ds = some n ∧ v = -(n : Int)) := by
  constructor
  · intro h
    unfold parseLit at h
    split at h
    · obtain ⟨n, hn, hv⟩ := Option.map_eq_some_iff.mp h
      exact .inr ⟨_, n, rfl, hn, hv.symm⟩
    · obtain ⟨n, hn, hv⟩ := Option.map_eq_some_iff.mp h
      exact .inl ⟨n, hn, hv.symm⟩
  · rintro (⟨n, hn, rfl⟩ | ⟨ds, n, rfl, hn, rfl⟩)
    · exact parseLit_of_digits hn
    · simp [parseLit_minus, hn]

theorem parseDigits_decNat (n : Nat) : parseDigits (decNat n) = some n := by
  obtain ⟨hne, hds, hval⟩ := decNat_spec n
  refine parseDigits_eq_some.mpr ⟨hne, fun c hc => ?_, hval.symm⟩
  obtain ⟨d, hd, rfl⟩ := hds c hc
  exact (digitChar_facts d hd).1

/-- The spelling of an integer reads back as the integer (41_output_and_halt.md R141). -/
@[simp] theorem parseLit_dec (v : Int) : parseLit (dec v) = some v := by
  cases v with
  | ofNat n => exact parseLit_of_digits (parseDigits_decNat n)
  | negSucc n =>
    rw [dec, parseLit_minus, parseDigits_decNat]
    rfl

/-! ### Spelled operands read back (30_encoding.md R81) -/

/-- A register's name begins with `R`, which no spelling of an integer holds. -/
theorem dec_ne_name (v : Int) (r : Reg) : dec v ≠ r.name := by
  intro h
  have hR : 'R' ∈ dec v := h ▸ (by cases r <;> decide)
  rcases dec_chars v _ hR with hminus | ⟨d, hd, hdigit⟩
  · exact absurd hminus (by decide)
  · exact (digitChar_facts d hd).2.2.2.2.2 hdigit.symm

@[simp] theorem valueOperand_text (o : Operand) : valueOperand o.text = .ok o := by
  cases o with
  | reg r => exact valueOperand_name r
  | lit v => exact valueOperand_of_parseLit (dec_ne_name v) (parseLit_dec v)

theorem addrOperand_of_resolve (hj : p.jumpOperand = .resolve) (tok : Text) :
    addrOperand p tok = valueOperand tok := by
  simp [addrOperand, hj]

theorem addrOperand_of_parseLit (hj : p.jumpOperand = .literal) {v : Int}
    (h : parseLit tok = some v) : addrOperand p tok = .ok (.lit v) := by
  simp [addrOperand, hj, h]

theorem addrOperand_of_parseLit_none (hj : p.jumpOperand = .literal) (h : parseLit tok = none) :
    addrOperand p tok = .error (.invalidOperand tok) := by
  simp [addrOperand, hj, h]

/-- Under resolve every operand reads back as a value operand, under literal only a literal is
well-formed (30_encoding.md R75). -/
theorem addrOperand_text {o : Operand} (h : o.wfAddr p = true) : addrOperand p o.text = .ok o := by
  cases hj : p.jumpOperand with
  | resolve => exact (addrOperand_of_resolve hj _).trans (valueOperand_text o)
  | literal =>
    cases o with
    | reg r => simp [Operand.wfAddr, hj] at h
    | lit v => exact addrOperand_of_parseLit hj (parseLit_dec v)

/-! ### What the formats answer when their operands decode (30_encoding.md R76) -/

theorem decodeT3_of_ok {mk : Reg → Operand → Instr} {dst src : Text} {d : Reg} {v : Operand}
    (hd : regname dst = .ok d) (hs : valueOperand src = .ok v) :
    decodeT3 mk dst src = .ok (mk d v) := by
  simp [decodeT3, hd, hs]

theorem decodeT2R_of_ok {mk : Reg → Instr} {r : Reg} (h : regname tok = .ok r) :
    decodeT2R mk tok = .ok (mk r) := by
  simp [decodeT2R, h]

theorem decodeT2A_of_ok {mk : Operand → Instr} {a : Operand} (h : addrOperand p tok = .ok a) :
    decodeT2A p mk tok = .ok (mk a) := by
  simp [decodeT2A, h]

/-! ### The encoder's inverse -/

/-- The canonical line of a three-token opcode, whose operands build the instruction `mk`. -/
theorem decode_encodeT3 {mk : Reg → Operand → Instr} (harity : op.arity = 3)
    (hmk : ∀ line dst src, decodeOperands p line op [dst, src] = decodeT3 mk dst src)
    (d : Reg) (s : Operand) : decode p (encodeT3 op d s) = .ok (mk d s) := by
  have htokens := Laws.CanonicalTokens.encodeT3_tokens op d s
  rw [decode_of_arity htokens (opcodeOf_name op) harity, hmk]
  exact decodeT3_of_ok (regname_name_comma d) (valueOperand_text s)

/-- The canonical line of a two-token opcode. -/
theorem decode_encodeT2 (harity : op.arity = 2) (hne : tok ≠ [])
    (htok : ∀ c ∈ tok, isSpace c = false) :
    decode p (encodeT2 op tok) = decodeOperands p (encodeT2 op tok) op [tok] :=
  decode_of_arity (Laws.CanonicalTokens.encodeT2_tokens op hne htok) (opcodeOf_name op) harity

theorem decode_encode (h : i.wf p = true) : decode p (encode i) = .ok i := by
  cases i with
  | mov d s | add d s | sub d s | mul d s | div d s =>
    exact decode_encodeT3 rfl (fun _ _ _ => rfl) d s
  | prn r =>
    exact (decode_encodeT2 rfl r.name_ne_nil r.name_no_space).trans
      (decodeT2R_of_ok (regname_name r))
  | jmp a | jc a =>
    exact (decode_encodeT2 rfl a.text_ne_nil a.text_no_space).trans
      (decodeT2A_of_ok (addrOperand_text h))
  | hlt => exact decode_of_arity Laws.CanonicalTokens.hlt (opcodeOf_name .hlt) rfl
  | blank => exact decode_of_tokens_nil tokens_nil

/-- Settles O19: the canonical line has the tokens of its format, and each operand's spelling is
read back by its decoder. -/
theorem decodeInvertsEncode : Obligations.DecodeInvertsEncode := fun _ _ => decode_encode

end Sys2Proof.Machine
end

section
/-! PROOFS of the statements about the split program and the machine's invariant (30_encoding.md
R60, 70_reset_and_hazards.md R230, R231). -/

namespace Sys2Proof.Machine

variable {s t : State} {i : Instr}

/-! ### Lines (30_encoding.md R60) -/

/-- What relates a text to its lines is proved by induction on the text: a line feed begins a new
line, and every other character stands in front of the first line. -/
theorem splitLines_induction {P : Text → List Text → Prop} (nil : P [] [[]])
    (newline : ∀ cs l ls, P cs (l :: ls) → P ('\n' :: cs) ([] :: l :: ls))
    (char : ∀ c cs l ls, c ≠ '\n' → P cs (l :: ls) → P (c :: cs) ((c :: l) :: ls)) (text : Text) :
    P text (splitLines text) ∧ splitLines text ≠ [] := by
  induction text with
  | nil => exact ⟨nil, List.cons_ne_nil [] []⟩
  | cons c cs ih =>
    obtain ⟨hP, hne⟩ := ih
    obtain ⟨l, ls, hcs⟩ := List.exists_cons_of_ne_nil hne
    rw [hcs] at hP
    by_cases hc : c = '\n'
    · subst hc
      simpa [splitLines, hcs] using newline cs l ls hP
    · simpa [splitLines, hc, hcs] using char c cs l ls hc hP

theorem splitLines_ne_nil (text : Text) : splitLines text ≠ [] :=
  (splitLines_induction (P := fun _ _ => True) trivial (fun _ _ _ _ => trivial)
    (fun _ _ _ _ _ _ => trivial) text).2

theorem length_splitLines (text : Text) :
    (splitLines text).length = text.count '\n' + 1 := by
  refine (splitLines_induction (P := fun text ls => ls.length = text.count '\n' + 1) rfl
    (fun cs l ls h => ?_) (fun c cs l ls hc h => ?_) text).1
  · rw [List.count_cons_self, List.length_cons, h]
  · rw [List.count_cons_of_ne hc, ← h, List.length_cons, List.length_cons]

theorem splitLines_no_newline (text : Text) : ∀ l ∈ splitLines text, '\n' ∉ l := by
  refine (splitLines_induction (P := fun _ ls => ∀ l ∈ ls, '\n' ∉ l) (by simp)
    (fun cs l ls h => ?_) (fun c cs l ls hc h => ?_) text).1
  · exact List.forall_mem_cons.mpr ⟨List.not_mem_nil, h⟩
  · obtain ⟨hl, hls⟩ := List.forall_mem_cons.mp h
    exact List.forall_mem_cons.mpr ⟨List.not_mem_cons_of_ne_of_not_mem hc.symm hl, hls⟩

theorem joinLines_splitLines (text : Text) : joinLines (splitLines text) = text := by
  refine (splitLines_induction (P := fun text ls => joinLines ls = text) rfl
    (fun cs l ls h => ?_) (fun c cs l ls _ h => ?_) text).1
  · rw [joinLines, h, List.nil_append]
  · rw [joinLines_cons] at h ⊢
    rw [List.cons_append, h]

theorem splitLines_head? (text : Text) :
    (splitLines text).head? = some (text.takeWhile (· ≠ '\n')) := by
  refine (splitLines_induction
    (P := fun text ls => ls.head? = some (text.takeWhile (· ≠ '\n'))) rfl
    (fun cs l ls h => ?_) (fun c cs l ls hc h => ?_) text).1
  · simp
  · rw [List.takeWhile_cons_of_pos (by simpa using hc)]
    simpa using h

/-- Settles O3: each of the three facts by induction on the text. -/
theorem linesSplitAtLineFeeds : Obligations.LinesSplitAtLineFeeds :=
  fun text => ⟨length_splitLines text, splitLines_no_newline text, joinLines_splitLines text⟩

/-- Settles O1: the fetch at index 0 reads the first line of the split text. -/
theorem entryPointIsLineOne : Obligations.EntryPointIsLineOne :=
  fun _ text => ⟨rfl, List.head?_eq_getElem?.symm.trans (splitLines_head? text)⟩

/-- Settles O2: the start is a state written out, whose four registers are 0. -/
theorem resetValues : Obligations.ResetValues := by
  refine ⟨fun p text => ⟨fun r => ?_, rfl, rfl, rfl, rfl, rfl, rfl⟩, rfl, rfl⟩
  cases r <;> rfl

/-! ### The invariant (00_scope.md R13, 41_output_and_halt.md R146, R147) -/

theorem start_inv (p : Params) (text : Text) : (State.start p text).Inv where
  program_ne := splitLines_ne_nil text
  program_lines := splitLines_no_newline text
  output_ok := start_outputOk p text
  halted_pc := nofun

/-- Settles O53: the program is the split text, the output is empty and the core is running. -/
theorem startMeetsInvariant : Obligations.StartMeetsInvariant :=
  ⟨start_inv, start_inv Params.default []⟩

theorem exec_hlt_pc (h : exec .hlt s = .next t) : t.pc = s.pc + 1 := by
  cases h
  rfl

/-- Only `HLT` halts, and it advances past itself (41_output_and_halt.md R146). -/
theorem exec_halted_pc (hh : s.halted = false) (h : exec i s = .next t) (ht : t.halted = true) :
    0 < t.pc := by
  by_cases hi : i = .hlt
  · subst hi
    rw [exec_hlt_pc h]
    exact Nat.succ_pos s.pc
  · rw [exec_keeps_halted hi h, hh] at ht
    cases ht

theorem step_keeps_halted_pc (hs : s.halted = true → 0 < s.pc) (h : step s = .next t) :
    t.halted = true → 0 < t.pc := by
  rcases step_next h with ⟨_, rfl⟩ | ⟨_, _, rfl⟩ | ⟨hh, _, _, _, _, hexec⟩
  · exact hs
  · exact hs
  · exact exec_halted_pc hh hexec

theorem step_keeps_inv (hs : s.Inv) (h : step s = .next t) : t.Inv where
  program_ne := (step_program h).1 ▸ hs.program_ne
  program_lines := (step_program h).1 ▸ hs.program_lines
  output_ok := step_keeps_outputOk hs.output_ok h
  halted_pc := step_keeps_halted_pc hs.halted_pc h

/-- Settles O52: no step writes the program, the output keeps its shape, and the one instruction
that halts advances. -/
theorem everyStepKeepsInvariant : Obligations.EveryStepKeepsInvariant :=
  fun _ _ => step_keeps_inv

end Sys2Proof.Machine
end

section
/-! PROOFS of the statements of 30_encoding.md about characters, operand tokens and the rejections
of the decoder. -/

namespace Sys2Proof.Machine

variable {p : Params} {line line' t t' tok : Text} {args : List Text} {op : Opcode} {i : Instr}
  {c : Cause}

/-! ### Characters (30_encoding.md R62, R66) -/

theorem toNat_eq_iff_eq_ofNat {ch : Char} {n : Nat} (hn : (Char.ofNat n).toNat = n) :
    ch.toNat = n ↔ ch = Char.ofNat n := by
  rw [← Char.toNat_inj, hn]

/-- Settles O7: each of the five codes is the code of one character. -/
theorem whitespaceIsFiveCharacters : Obligations.WhitespaceIsFiveCharacters := by
  intro ch
  simp only [isSpace, Bool.or_eq_true, decide_eq_true_eq, or_assoc]
  rw [toNat_eq_iff_eq_ofNat (by decide), toNat_eq_iff_eq_ofNat (by decide),
    toNat_eq_iff_eq_ofNat (by decide), toNat_eq_iff_eq_ofNat (by decide),
    toNat_eq_iff_eq_ofNat (by decide)]

/-- The lower-case letters are the characters of code 97 to 122. -/
theorem lowerCase_of_code : ∀ n < 123, 97 ≤ n →
    Char.ofNat n ∈ "abcdefghijklmnopqrstuvwxyz".toList := by
  decide

theorem upperChar_of_not_lowerCase {ch : Char}
    (h : ch ∉ "abcdefghijklmnopqrstuvwxyz".toList) : upperChar ch = ch := by
  refine if_neg fun hcode => h ?_
  simp only [Bool.and_eq_true, decide_eq_true_eq] at hcode
  obtain ⟨hlo, hhi⟩ := hcode
  simpa using lowerCase_of_code ch.toNat (Nat.lt_succ_of_le hhi) hlo

theorem opcodeOf_eq_of_asciiUpper (h : asciiUpper t = asciiUpper t') :
    opcodeOf t = opcodeOf t' := by
  simp only [opcodeOf, h]

/-! ### Lines with the same tokens (30_encoding.md R61) -/

/-- With the required tokens at hand, an opcode reads these alone: neither the line nor the tokens
beyond them. -/
theorem decodeOperands_take (h : op.arity ≤ args.length + 1) (line line' : Text) :
    decodeOperands p line op args = decodeOperands p line' op (args.take (op.arity - 1)) := by
  cases op with
  | mov | add | sub | mul | div =>
    match args, h with
    | [], h => exact absurd h (by simp [Opcode.arity])
    | [_], h => exact absurd h (by simp [Opcode.arity])
    | _ :: _ :: _, _ => rfl
  | prn | jmp | jc =>
    match args, h with
    | [], h => exact absurd h (by simp [Opcode.arity])
    | _ :: _, _ => rfl
  | hlt => rfl

theorem decodeOperands_line (h : op.arity ≤ args.length + 1) (line line' : Text) :
    decodeOperands p line op args = decodeOperands p line' op args :=
  (decodeOperands_take h line line).trans (decodeOperands_take h line' line).symm

/-- Two lines of one opcode with the same operand tokens are both refused for their number, or
decode alike. -/
theorem decode_eq_of_opcodeOf_eq (ht : tokens line = t :: args) (ht' : tokens line' = t' :: args)
    (hop : opcodeOf t = some op) (hop' : opcodeOf t' = some op) :
    (decode p line = .error (.malformedInstruction line) ∧
      decode p line' = .error (.malformedInstruction line')) ∨
    decode p line' = decode p line := by
  by_cases hn : TokenCountOk p op (args.length + 1)
  · rw [decode_of_tokenCountOk ht hop hn, decode_of_tokenCountOk ht' hop' hn]
    exact .inr (decodeOperands_line hn.1 line' line)
  · exact .inl ⟨decode_of_not_tokenCountOk ht hop hn, decode_of_not_tokenCountOk ht' hop' hn⟩

theorem decode_eq_of_tokens_eq (h : tokens line' = tokens line) :
    (decode p line = .error (.malformedInstruction line) ∧
      decode p line' = .error (.malformedInstruction line')) ∨
    decode p line' = decode p line := by
  rcases ht : tokens line with _ | ⟨t, args⟩
  · rw [decode_of_tokens_nil ht, decode_of_tokens_nil (h.trans ht)]
    exact .inr rfl
  · rcases hop : opcodeOf t with _ | op
    · rw [decode_of_opcodeOf_none ht hop, decode_of_opcodeOf_none (h.trans ht) hop]
      exact .inr rfl
    · exact decode_eq_of_opcodeOf_eq ht (h.trans ht) hop hop

/-- Whitespace behind a line ends its last token and adds none. -/
theorem tokenized_append_spaces {ts : List Text} {ws : Text} (hws : ∀ c ∈ ws, isSpace c = true)
    (h : Tokenized line ts) : Tokenized (line ++ ws) ts := by
  induction h with
  | nil front hfront => exact .nil _ (List.forall_mem_append.mpr ⟨hfront, hws⟩)
  | cons front tok rest ts hfront hne htok hrest _ ih =>
    rw [List.append_assoc]
    refine .cons front tok (rest ++ ws) ts hfront hne htok ?_ ih
    cases rest with
    | nil => exact fun c hc => hws c (List.mem_of_mem_head? hc)
    | cons b bs => exact hrest

theorem tokens_spaces_both {a b : Text} (ha : ∀ c ∈ a, isSpace c = true)
    (hb : ∀ c ∈ b, isSpace c = true) : tokens (a ++ line ++ b) = tokens line := by
  rw [List.append_assoc, tokens_spaces ha]
  exact tokens_eq_of_tokenized (tokenized_append_spaces hb (tokenized_tokens line))

/-! ### What decoding a line can answer -/

/-- A decoded instruction comes from the operands of the line's opcode, unless it is the blank
one. -/
theorem decode_ok (h : decode p line = .ok i) :
    i = .blank ∨ ∃ op args, decodeOperands p line op args = .ok i := by
  rcases ht : tokens line with _ | ⟨t, args⟩
  · rw [decode_of_tokens_nil ht] at h
    cases h
    exact .inl rfl
  · rcases hop : opcodeOf t with _ | op
    · rw [decode_of_opcodeOf_none ht hop] at h
      cases h
    · rcases decode_of_opcodeOf_some (p := p) ht hop with hd | hd <;> rw [hd] at h
      · cases h
      · exact .inr ⟨op, args, h⟩

theorem decode_error (h : decode p line = .error c) :
    (∃ t args, tokens line = t :: args ∧ c = .unknownInstruction t) ∨
    c = .malformedInstruction line ∨
    (∃ tok ∈ tokens line, c = .invalidRegister (stripComma tok)) ∨
    (∃ tok ∈ tokens line, c = .invalidOperand tok) := by
  rcases ht : tokens line with _ | ⟨t, args⟩
  · rw [decode_of_tokens_nil ht] at h
    cases h
  · rcases hop : opcodeOf t with _ | op
    · rw [decode_of_opcodeOf_none ht hop] at h
      cases h
      exact .inl ⟨t, args, rfl, rfl⟩
    · rcases decode_of_opcodeOf_some (p := p) ht hop with hd | hd <;> rw [hd] at h
      · cases h
        exact .inr (.inl rfl)
      · rcases decodeOperands_error h with hc | ⟨tok, hmem, hc⟩ | ⟨tok, hmem, hc⟩
        · exact .inr (.inl hc)
        · exact .inr (.inr (.inl ⟨tok, List.mem_cons_of_mem t hmem, hc⟩))
        · exact .inr (.inr (.inr ⟨tok, List.mem_cons_of_mem t hmem, hc⟩))

theorem decode_malformed_detail {l : Text}
    (h : decode p line = .error (.malformedInstruction l)) : l = line := by
  simpa using decode_error h

/-- Settles O8: the longer line has the same tokens, so both are refused for their number or both
decode alike, and a detail of `MalformedInstruction` is always the line itself. -/
theorem lineEdgeWhitespaceIgnored : Obligations.LineEdgeWhitespaceIgnored := by
  intro p a line b ha hb
  rcases decode_eq_of_tokens_eq (p := p) (tokens_spaces_both (line := line) ha hb) with
    ⟨hd, hd'⟩ | hd
  · rw [hd, hd']
  · rw [← hd]
    split
    · next l hl => rw [hl, decode_malformed_detail hl]
    · rfl

/-- Settles O10: the fold is a map over characters, and lines whose first tokens fold alike have the
same opcode, whose operands are the same. -/
theorem opcodeCaseIgnored : Obligations.OpcodeCaseIgnored := by
  refine ⟨fun a b => List.map_append, by decide,
    fun ch hch => congrArg (fun u => [u]) (upperChar_of_not_lowerCase hch),
    fun p line line' t t' args ht ht' hup i => ?_⟩
  have hsame : opcodeOf t = opcodeOf t' := opcodeOf_eq_of_asciiUpper hup
  rcases hop : opcodeOf t with _ | op
  · rw [decode_of_opcodeOf_none ht hop, decode_of_opcodeOf_none ht' (hsame ▸ hop)]
    exact ⟨nofun, nofun⟩
  · rcases decode_eq_of_opcodeOf_eq (p := p) ht ht' hop (hsame ▸ hop) with ⟨hd, hd'⟩ | hd
    · rw [hd, hd']
      exact ⟨nofun, nofun⟩
    · rw [hd]

/-- Settles O11: the number of tokens is checked before the operands are decoded, and these read the
required tokens alone. -/
theorem tokenCountDecides : Obligations.TokenCountDecides := by
  refine ⟨by decide, fun p line t args op ht hup => ?_⟩
  have hop : opcodeOf t = some op := opcodeOf_eq_some.mpr hup
  refine ⟨fun hfew => ?_, fun hmany hfault => ?_, fun hle hignore line' ht' => ?_⟩
  · exact decode_of_not_tokenCountOk ht hop fun hok => absurd hok.1 (not_le.mpr hfew)
  · refine decode_of_not_tokenCountOk ht hop fun hok => ?_
    cases hfault.symm.trans (hok.2 hmany)
  · have hpos : 0 < op.arity := by cases op <;> decide
    have hlen : (args.take (op.arity - 1)).length + 1 = op.arity := by
      rw [List.length_take]
      omega
    rw [decode_of_tokenCountOk ht hop ⟨hle, fun _ => hignore⟩,
      decode_of_arity ht' hop hlen.symm]
    exact decodeOperands_take hle line line'

/-! ### Well-formedness of what is decoded (30_encoding.md R75) -/

theorem addrOperand_ok_wfAddr {a : Operand} (h : addrOperand p tok = .ok a) :
    a.wfAddr p = true := by
  cases a with
  | lit v => rfl
  | reg r =>
    refine decide_eq_true ?_
    cases hj : p.jumpOperand with
    | resolve => rfl
    | literal =>
      simp only [addrOperand, hj] at h
      split at h <;> cases h

/-- Settles O20: only the operand of a jump can be ill-formed, and its decoder answers a register
only under resolve. -/
theorem decodedInstructionsAreWellFormed : Obligations.DecodedInstructionsAreWellFormed := by
  intro p line i h
  rcases decode_ok h with rfl | ⟨op, args, hops⟩
  · rfl
  · rcases decodeOperands_ok hops with ⟨d, v, hi⟩ | ⟨r, rfl⟩ | ⟨tok, a, ha, rfl | rfl⟩ | rfl
    · simp only [List.mem_cons, List.not_mem_nil, or_false] at hi
      rcases hi with rfl | rfl | rfl | rfl | rfl <;> rfl
    · rfl
    · exact addrOperand_ok_wfAddr ha
    · exact addrOperand_ok_wfAddr ha
    · rfl

end Sys2Proof.Machine
end

section
/-! PROOFS of the statements of 30_encoding.md and 41_output_and_halt.md about operand tokens: the
comma, literals, the decimal spelling, and what the lines of each format decode to. -/

namespace Sys2Proof.Machine

variable {p : Params} {line t tok dst src : Text} {op : Opcode} {c : Cause}

/-! ### The trailing comma (30_encoding.md R71, R72) -/

@[simp] theorem stripComma_append_comma (n : Text) : stripComma (n ++ [',']) = n := by
  simp [stripComma]

theorem stripComma_of_no_comma (h : ∀ n, tok ≠ n ++ [',']) : stripComma tok = tok :=
  if_neg fun hlast => have ⟨n, hn⟩ := List.getLast?_eq_some_iff.mp hlast
    h n hn

/-- A token is what remains of it, or that and one comma. -/
theorem eq_stripComma_or (tok : Text) : tok = stripComma tok ∨ tok = stripComma tok ++ [','] := by
  by_cases h : ∃ n, tok = n ++ [',']
  · obtain ⟨n, rfl⟩ := h
    exact .inr (by simp)
  · exact .inl (stripComma_of_no_comma (not_exists.mp h)).symm

theorem regname_of_not_name (h : ∀ r : Reg, stripComma tok ≠ r.name) :
    regname tok = .error (.invalidRegister (stripComma tok)) := by
  simp [regname, regOf_eq_none.mpr h]

theorem regname_eq_ok {r : Reg} : regname tok = .ok r ↔ tok = r.name ∨ tok = r.name ++ [','] := by
  constructor
  · intro h
    have hname : stripComma tok = r.name := by
      unfold regname at h
      split at h <;> cases h
      exact regOf_eq_some.mp ‹_›
    exact hname ▸ eq_stripComma_or tok
  · rintro (rfl | rfl)
    · exact regname_name r
    · exact regname_name_comma r

/-- Settles O14: the decoder looks up what the token leaves without one trailing comma. -/
theorem registerOperandStripsOneComma : Obligations.RegisterOperandStripsOneComma := by
  refine ⟨fun tok r => regname_eq_ok, fun tok hne => ?_⟩
  have herror : regname tok = .error (.invalidRegister (stripComma tok)) := by
    refine regname_of_not_name fun r hr => ?_
    rcases hr ▸ eq_stripComma_or tok with h | h
    · exact (hne r).1 h
    · exact (hne r).2 h
  refine ⟨fun n hn => ?_, fun hno => ?_⟩
  · rw [herror, hn, stripComma_append_comma]
  · rw [herror, stripComma_of_no_comma hno]

/-- Settles O21: each error's detail is the line or comes from one of its tokens, a register's with
or without its trailing comma. -/
theorem decoderReportsItsFourKinds : Obligations.DecoderReportsItsFourKinds := by
  intro p line c h
  rcases decode_error h with hunknown | hmalformed | ⟨tok, hmem, rfl⟩ | ⟨tok, hmem, rfl⟩
  · exact .inl hunknown
  · exact .inr (.inl hmalformed)
  · refine .inr (.inr (.inl ⟨_, rfl, ?_⟩))
    rcases eq_stripComma_or tok with htok | htok
    · exact .inl (htok ▸ hmem)
    · exact .inr (htok ▸ hmem)
  · exact .inr (.inr (.inr ⟨tok, rfl, hmem⟩))

/-! ### Literals (30_encoding.md R74) -/

theorem digitVal_of_isDigit {d : Char} (h : isDigit d = true) : digitVal d = d.toNat - 48 := by
  have hcode : ∀ n < 58, 48 ≤ n → digitVal (Char.ofNat n) = (Char.ofNat n).toNat - 48 := by decide
  simp only [isDigit, Bool.and_eq_true, decide_eq_true_eq] at h
  simpa using hcode d.toNat (Nat.lt_succ_of_le h.2) h.1

/-- What the digits spell, the last one the units. -/
theorem digitsValue_eq_ofDigits {ds : Text} (h : ∀ d ∈ ds, isDigit d = true) :
    digitsValue 0 ds = Nat.ofDigits 10 (ds.reverse.map fun d => d.toNat - 48) := by
  induction ds using List.reverseRecOn with
  | nil => rfl
  | append_singleton ds d ih =>
    obtain ⟨hds, hd⟩ := List.forall_mem_append.mp h
    rw [digitsValue_append, ih hds, List.reverse_append, List.reverse_singleton,
      List.singleton_append, List.map_cons, Nat.ofDigits_cons, add_comm]
    simp [digitsValue, digitVal_of_isDigit (hd d (List.mem_singleton_self d))]

theorem parseDigits_eq_some_iff_ofDigits {n : Nat} :
    parseDigits tok = some n ↔ tok ≠ [] ∧ (∀ d ∈ tok, '0' ≤ d ∧ d ≤ '9') ∧
      n = Nat.ofDigits 10 (tok.reverse.map fun d => d.toNat - 48) := by
  simp only [parseDigits_eq_some, ← isDigit_iff]
  refine and_congr_right fun _ => and_congr_right fun hds => ?_
  rw [digitsValue_eq_ofDigits hds]

/-- Settles O16: the literal decoder reads digits, with or without a minus sign before them, and the
digits' value is the library's. -/
theorem literalIsSignedDecimal : Obligations.LiteralIsSignedDecimal := by
  intro tok v
  simp only [parseLit_eq_some, parseDigits_eq_some_iff_ofDigits]
  constructor
  · rintro (⟨n, ⟨hne, hds, rfl⟩, hv⟩ | ⟨ds, n, htok, ⟨hne, hds, rfl⟩, hv⟩)
    · exact ⟨tok, hne, hds, .inl ⟨rfl, hv⟩⟩
    · exact ⟨ds, hne, hds, .inr ⟨htok, hv⟩⟩
  · rintro ⟨ds, hne, hds, ⟨rfl, hv⟩ | ⟨htok, hv⟩⟩
    · exact .inl ⟨_, ⟨hne, hds, rfl⟩, hv⟩
    · exact .inr ⟨ds, _, htok, ⟨hne, hds, rfl⟩, hv⟩

/-- A register's name begins with no digit and no minus sign. -/
theorem parseLit_name (r : Reg) : parseLit r.name = none := by
  cases r <;> decide

/-- Settles O17: each form of the operand has its own decoder, and no register's name is a
literal. -/
theorem jumpOperandForm : Obligations.JumpOperandForm := by
  refine fun p tok => ⟨fun hj => addrOperand_of_resolve hj tok,
    fun hj v hlit => addrOperand_of_parseLit hj hlit,
    fun hj hlit => addrOperand_of_parseLit_none hj hlit, fun hj r hr => ?_⟩
  exact addrOperand_of_parseLit_none hj (hr ▸ parseLit_name r)

/-! ### The decimal spelling (41_output_and_halt.md R141) -/

theorem digitChar_ne_zero : ∀ n < 10, 0 < n → digitChar n ≠ '0' := by
  decide

/-- The first digit is the last quotient, which is not 0 unless the number is. -/
theorem digitsOf_head?_ne_zero {fuel n : Nat} (acc : Text) (hn : 0 < n) (h : n < fuel) :
    (digitsOf fuel n acc).head? ≠ some '0' := by
  induction fuel generalizing n acc with
  | zero => omega
  | succ fuel ih =>
    rw [digitsOf]
    split
    · next hlt => simpa using digitChar_ne_zero n hlt hn
    · exact ih _ (by omega) (by omega)

theorem decNat_zero : decNat 0 = ['0'] := rfl

theorem decNat_eq_zero_of_head? {n : Nat} (h : (decNat n).head? = some '0') : decNat n = ['0'] := by
  rcases Nat.eq_zero_or_pos n with rfl | hn
  · exact decNat_zero
  · exact absurd h (digitsOf_head?_ne_zero [] hn (Nat.lt_succ_self n))

theorem dec_eq_decNat_natAbs (v : Int) :
    dec v = if v < 0 then '-' :: decNat v.natAbs else decNat v.natAbs := by
  cases v with
  | ofNat n => exact (if_neg (not_lt.mpr (Int.natCast_nonneg n))).symm
  | negSucc n => exact (if_pos (Int.negSucc_lt_zero n)).symm

/-- Settles O32: the spelling is the sign and the digits of the absolute value, which the literal
decoder reads back. -/
theorem decimalIsShortest : Obligations.DecimalIsShortest := by
  intro v
  obtain ⟨hne, hdigits, _⟩ := parseDigits_eq_some.mp (parseDigits_decNat v.natAbs)
  exact ⟨parseLit_dec v, decNat v.natAbs, dec_eq_decNat_natAbs v, hne,
    fun d hd => isDigit_iff.mp (hdigits d hd), decNat_eq_zero_of_head?⟩

/-! ### Lines of three tokens (30_encoding.md R68, R76, 60_exceptions.md R206) -/

theorem decodeT3_of_dst_error {mk : Reg → Operand → Instr} (h : regname dst = .error c) :
    decodeT3 mk dst src = .error c := by
  simp [decodeT3, h]

theorem decodeT3_of_src_error {mk : Reg → Operand → Instr} {d : Reg} (hd : regname dst = .ok d)
    (hs : valueOperand src = .error c) : decodeT3 mk dst src = .error c := by
  simp [decodeT3, hd, hs]

/-- The opcodes of three tokens share one format, each with its own instruction to build. -/
theorem decodeOperands_of_arity_three (h : op.arity = 3) :
    ∃ mk, ∀ p line dst src, decodeOperands p line op [dst, src] = decodeT3 mk dst src := by
  cases op with
  | mov | add | sub | mul | div => exact ⟨_, fun _ _ _ _ => rfl⟩
  | prn | jmp | jc | hlt => cases h

/-- Settles O12: without the comma the register's name decodes alike, and a comma that no whitespace
follows leaves two tokens. -/
theorem commaIsOptional : Obligations.CommaIsOptional := by
  intro p op d src harity
  obtain ⟨mk, hmk⟩ := decodeOperands_of_arity_three harity
  constructor
  · have htokens : tokens (op.name ++ ' ' :: (d.name ++ ' ' :: src.text)) =
        [op.name, d.name, src.text] := by
      rw [tokens_token_space op.name_ne_nil op.name_no_space (by decide),
        tokens_token_space d.name_ne_nil d.name_no_space (by decide),
        tokens_token_end src.text_ne_nil src.text_no_space]
    rw [decode_of_arity htokens (opcodeOf_name op) harity, hmk,
      decodeT3_of_ok (regname_name d) (valueOperand_text src)]
    exact (decode_encodeT3 harity (hmk p) d src).symm
  · have hfused : ∀ ch ∈ d.name ++ ',' :: src.text, isSpace ch = false :=
      List.forall_mem_append.mpr ⟨d.name_no_space,
        List.forall_mem_cons.mpr ⟨by decide, src.text_no_space⟩⟩
    have htokens := Laws.CanonicalTokens.encodeT2_tokens op (by simp) hfused
    refine decode_of_not_tokenCountOk htokens (opcodeOf_name op) fun hok => ?_
    exact absurd hok.1 (by simp [harity])

/-- Settles O18: the line decodes as its two operands do, `dst` first. -/
theorem operandErrorsInOrder : Obligations.OperandErrorsInOrder := by
  intro p line t dst src op harity ht hup
  have hdecode : decode p line = decodeOperands p line op [dst, src] :=
    decode_of_arity ht (opcodeOf_eq_some.mpr hup) harity
  rw [hdecode]
  obtain ⟨mk, hmk⟩ := decodeOperands_of_arity_three harity
  refine ⟨fun c hd => ?_, fun d c hd hs => ?_, fun d v hd hs => ⟨?_, ?_, ?_, ?_, ?_⟩⟩
  · exact (hmk ..).trans (decodeT3_of_dst_error hd)
  · exact (hmk ..).trans (decodeT3_of_src_error hd hs)
  all_goals
    rintro rfl
    exact decodeT3_of_ok hd hs

/-! ### Lines of one and two tokens (30_encoding.md R76) -/

theorem decodeT2R_of_error {mk : Reg → Instr} (h : regname tok = .error c) :
    decodeT2R mk tok = .error c := by
  simp [decodeT2R, h]

theorem decodeT2A_of_error {mk : Operand → Instr} (h : addrOperand p tok = .error c) :
    decodeT2A p mk tok = .error c := by
  simp [decodeT2A, h]

theorem decode_prn (ht : tokens line = [t, tok]) (hup : asciiUpper t = Opcode.prn.name) :
    decode p line = decodeT2R .prn tok :=
  decode_of_arity ht (opcodeOf_eq_some.mpr hup) rfl

theorem decode_jmp (ht : tokens line = [t, tok]) (hup : asciiUpper t = Opcode.jmp.name) :
    decode p line = decodeT2A p .jmp tok :=
  decode_of_arity ht (opcodeOf_eq_some.mpr hup) rfl

theorem decode_jc (ht : tokens line = [t, tok]) (hup : asciiUpper t = Opcode.jc.name) :
    decode p line = decodeT2A p .jc tok :=
  decode_of_arity ht (opcodeOf_eq_some.mpr hup) rfl

theorem decode_hlt (ht : tokens line = [t]) (hup : asciiUpper t = Opcode.hlt.name) :
    decode p line = .ok .hlt :=
  decode_of_arity ht (opcodeOf_eq_some.mpr hup) rfl

/-- Settles O59: each of the three formats answers what its operand's decoder answers. -/
theorem oneOperandLinesDecode : Obligations.OneOperandLinesDecode := by
  refine fun p line t => ⟨fun u ht hup => ?_, fun u ht hup => ?_, fun u ht hup => ?_, decode_hlt⟩
  · rw [decode_prn ht hup]
    exact ⟨fun _ => decodeT2R_of_ok, fun _ => decodeT2R_of_error⟩
  · rw [decode_jmp ht hup]
    exact ⟨fun _ => decodeT2A_of_ok, fun _ => decodeT2A_of_error⟩
  · rw [decode_jc ht hup]
    exact ⟨fun _ => decodeT2A_of_ok, fun _ => decodeT2A_of_error⟩

/-- Settles O22: the decoder runs on each of the ten lines. -/
theorem writtenOutLinesDecode : Obligations.WrittenOutLinesDecode := by
  refine ⟨?_, ?_, ?_, ?_, ?_, ?_, ?_, ?_, ?_, ?_⟩ <;> decide

end Sys2Proof.Machine
end

section
/-! PROOFS of the statements of 40_alu.md, 41_output_and_halt.md and 42_control_transfer.md about
one instruction: what it answers, what it leaves unchanged, and when it raises. -/

namespace Sys2Proof.Machine

variable {s t : State} {i : Instr} {d r : Reg} {src a : Operand}

/-! ### Reading and rewriting the register file -/

theorem State.reg_setReg_other (s : State) {q : Reg} (v : Int) (h : q ≠ r) :
    (s.setReg r v).reg q = s.reg q :=
  RegFile.read_write_other s.regs v h

@[simp] theorem State.setReg_reg (s : State) (r : Reg) : s.setReg r (s.reg r) = s :=
  congrArg (fun x => { s with regs := x }) (RegFile.write_read s.regs r)

/-! ### Division (40_alu.md R115, R116) -/

theorem fdiv_eq_floor_of_pos (a : Int) {b : Int} (hb : 0 < b) :
    Int.fdiv a b = ⌊(a : ℚ) / (b : ℚ)⌋ := by
  obtain ⟨n, rfl⟩ := Int.eq_ofNat_of_zero_le hb.le
  rw [Int.fdiv_eq_ediv_of_nonneg a hb.le, Int.cast_natCast, Rat.floor_intCast_div_natCast]

/-- The quotient is the floor of the rational one, for a divisor of either sign. -/
theorem floorDiv_eq_floor (a : Int) {b : Int} (hb : b ≠ 0) :
    floorDiv a b = ⌊(a : ℚ) / (b : ℚ)⌋ := by
  rcases lt_or_gt_of_ne hb with hneg | hpos
  · have h := fdiv_eq_floor_of_pos (-a) (neg_pos.mpr hneg)
    rwa [Int.neg_fdiv_neg, Int.cast_neg, Int.cast_neg, neg_div_neg_eq] at h
  · exact fdiv_eq_floor_of_pos a hpos

theorem exec_mov (d : Reg) (src : Operand) (s : State) :
    exec (.mov d src) s = .next (s.setReg d (operandValue src s)).advance := rfl

theorem exec_div_of_ne_zero (d : Reg) (h : operandValue src s ≠ 0) :
    exec (.div d src) s =
      .next (s.setReg d (floorDiv (s.reg d) (operandValue src s))).advance := by
  simp [exec, execDiv, h]

/-- Settles O27: the destination holds the floor of the rational quotient. -/
theorem divRoundsTowardNegativeInfinity : Obligations.DivRoundsTowardNegativeInfinity := by
  refine ⟨fun d src s h0 => ⟨_, exec_div_of_ne_zero d h0, ?_, ?_, rfl, rfl⟩, by decide⟩
  · rw [State.reg_advance, State.reg_setReg_same, floorDiv_eq_floor _ h0]
    exact Int.floor_le _
  · rw [State.reg_advance, State.reg_setReg_same, floorDiv_eq_floor _ h0]
    exact Int.lt_floor_add_one _

/-! ### The ALU's frame (40_alu.md R120) -/

/-- An ALU instruction writes its destination and perhaps carry, and advances. -/
theorem exec_alu_next
    (hi : i ∈ [Instr.mov d src, .add d src, .sub d src, .mul d src, .div d src])
    (h : exec i s = .next t) : ∃ v c, t = ((s.setReg d v).setCarry c).advance := by
  simp only [List.mem_cons, List.not_mem_nil, or_false] at hi
  rcases hi with rfl | rfl | rfl | rfl | rfl
  · exact ⟨_, s.carry, by cases h; rfl⟩
  · exact ⟨_, _, by cases h; rfl⟩
  · exact ⟨_, _, by cases h; rfl⟩
  · exact ⟨_, s.carry, by cases h; rfl⟩
  · by_cases h0 : operandValue src s = 0
    · rw [exec_div_of_zero d h0] at h
      cases h
    · rw [exec_div_of_ne_zero d h0] at h
      exact ⟨_, s.carry, by cases h; rfl⟩

theorem exec_alu_carry
    (hi : i ∈ [Instr.mov d src, .add d src, .sub d src, .mul d src, .div d src])
    (h : exec i s = .next t) :
    t.carry = if i = .add d src then decide (s.params.addCarryLimit < t.reg d)
      else if i = .sub d src then decide (t.reg d < s.params.subCarryLimit) else s.carry := by
  simp only [List.mem_cons, List.not_mem_nil, or_false] at hi
  rcases hi with rfl | rfl | rfl | rfl | rfl
  · simpa using exec_keeps_carry (by simp) h
  · simpa using exec_add_carry h
  · simpa using exec_sub_carry h
  · simpa using exec_keeps_carry (by simp) h
  · simpa using exec_keeps_carry (by simp) h

/-- Settles O30: the frame is that of the two writes and the advance, and the flag is read off each
instruction. -/
theorem aluFrame : Obligations.AluFrame := by
  intro d src s t i hi h
  have hcarry := exec_alu_carry hi h
  obtain ⟨v, c, rfl⟩ := exec_alu_next hi h
  exact ⟨fun r hr => State.reg_setReg_other s v hr, hcarry, rfl, rfl, rfl, rfl, rfl⟩

/-- Settles O23: the write of the destination and the advance are all that `MOV` does. -/
theorem movCopiesValue : Obligations.MovCopiesValue := fun d src s =>
  ⟨_, exec_mov d src s, State.reg_setReg_same s d _, fun _ hr => State.reg_setReg_other s _ hr,
    rfl, rfl, rfl, rfl, rfl, rfl⟩

/-- Settles O29: both operands are the register's value before the write. -/
theorem sourceMayBeDestination : Obligations.SourceMayBeDestination := by
  intro d s
  refine ⟨?_, ⟨_, exec_add d _ s, ?_⟩, ⟨_, exec_sub d _ s, ?_, ?_⟩, ⟨_, exec_mul d _ s, ?_⟩,
    fun h0 => ⟨_, exec_div_of_ne_zero d h0, ?_⟩⟩
  · rw [exec_mov, operandValue_reg, State.setReg_reg]
    rfl
  · simp [two_mul]
  · simp
  · simp
  · simp [pow_two]
  · simpa [floorDiv] using Int.fdiv_self h0

/-! ### Output and halt (41_output_and_halt.md R140, R145, R147) -/

theorem haltMessage_eq : haltMessage = "Program halted.".toList := by
  decide

/-- Settles O33: the state `HLT` answers is halted, so the run has ended with the joined output. -/
theorem hltEndsTheRun : Obligations.HltEndsTheRun := by
  intro s
  rw [← haltMessage_eq]
  exact ⟨_, rfl, rfl, ended_of_halted rfl⟩

/-- Settles O34: `PRN` appends its entry and advances, and `HLT` also sets the halted flag. -/
theorem outputFrame : Obligations.OutputFrame := by
  rintro i s t (⟨r, rfl⟩ | rfl) h <;> cases h
  · exact ⟨fun _ => rfl, rfl, rfl, by simp, ⟨_, rfl⟩, rfl, rfl⟩
  · exact ⟨fun _ => rfl, rfl, rfl, by simp, ⟨_, rfl⟩, rfl, rfl⟩

/-! ### Jumps (42_control_transfer.md R163 to R170) -/

theorem exec_taken_jump_of_neg (hi : i = .jmp a ∨ (i = .jc a ∧ s.carry = true))
    (h : operandValue a s < 0) :
    exec i s = .fault (.lineError (s.pc + 1) (.jumpTargetNegative (operandValue a s))) :=
  (exec_taken_jump hi).trans (jumpTo_fault.mpr ⟨h, rfl⟩)

theorem exec_jc_of_not_carry (a : Operand) (hc : s.carry = false) :
    exec (.jc a) s = .next s.advance := by
  simp [exec, execJc, hc]

/-- Settles O36: the jump that is taken tests its target, the one that is not only advances. -/
theorem negativeJumpRaises : Obligations.NegativeJumpRaises := by
  rintro addr s _ rfl hneg
  exact ⟨exec_taken_jump_of_neg (.inl rfl) hneg,
    fun hc => exec_taken_jump_of_neg (.inr ⟨rfl, hc⟩) hneg, exec_jc_of_not_carry addr⟩

/-- Settles O37: with carry 1 `JC` is a taken jump, with carry 0 the advance. -/
theorem jcJumpsOnCarry : Obligations.JcJumpsOnCarry := fun addr _ =>
  ⟨fun hc h0 => ⟨_, exec_taken_jump_of_nonneg (.inr ⟨rfl, hc⟩) h0, Int.toNat_of_nonneg h0, rfl⟩,
    exec_jc_of_not_carry addr⟩

/-- The jumps and the blank line write the pc alone. -/
theorem exec_jump_next (hi : (∃ a, i = .jmp a) ∨ (∃ a, i = .jc a) ∨ i = .blank)
    (h : exec i s = .next t) : ∃ n, t = s.setPc n := by
  rcases hi with ⟨a, rfl⟩ | ⟨a, rfl⟩ | rfl
  · obtain ⟨_, rfl⟩ := jumpTo_next.mp h
    exact ⟨_, rfl⟩
  · cases hc : s.carry with
    | true =>
      rw [exec_taken_jump (.inr ⟨rfl, hc⟩)] at h
      obtain ⟨_, rfl⟩ := jumpTo_next.mp h
      exact ⟨_, rfl⟩
    | false =>
      rw [exec_jc_of_not_carry a hc] at h
      cases h
      exact ⟨_, rfl⟩
  · cases h
    exact ⟨_, rfl⟩

/-- Settles O39: a write of the pc leaves every other field. -/
theorem jumpFrame : Obligations.JumpFrame := by
  intro i s t hi h
  obtain ⟨n, rfl⟩ := exec_jump_next hi h
  exact ⟨fun _ => rfl, rfl, rfl, rfl, rfl, rfl⟩

/-! ### What raises in execution (60_exceptions.md R210) -/

/-- Settles O50: a taken jump raises for a negative target, a division for a divisor of 0, and
nothing else does. -/
theorem executionRaisesOnlyTwoKinds : Obligations.ExecutionRaisesOnlyTwoKinds := by
  refine fun i s f => ⟨exec_fault, ?_⟩
  rintro (⟨a, hi, hneg, rfl⟩ | ⟨d, src, rfl, h0, rfl⟩)
  · exact exec_taken_jump_of_neg hi hneg
  · exact exec_div_of_zero d h0

theorem exec_ne_refused {w : Refusal} : exec i s ≠ .refused w := by
  cases i with
  | div d src =>
    by_cases h0 : operandValue src s = 0
    · rw [exec_div_of_zero d h0]
      nofun
    · rw [exec_div_of_ne_zero d h0]
      nofun
  | jmp a => exact jumpTo_ne_refused
  | jc a =>
    cases hc : s.carry with
    | true => exact exec_taken_jump (.inr ⟨rfl, hc⟩) ▸ jumpTo_ne_refused
    | false =>
      rw [exec_jc_of_not_carry a hc]
      nofun
  | mov | add | sub | mul | prn | hlt | blank => nofun

end Sys2Proof.Machine
end

section
/-! PROOFS of the statements of 10_state.md, 42_control_transfer.md and 60_exceptions.md about the
step and whole runs: what halts, how a run ends, and that its result is unique. -/

namespace Sys2Proof.Machine

variable {s t : State} {i : Instr} {line : Text} {p : Params} {text : Text} {k : Nat}
  {r : RunResult}

/-! ### The step (10_state.md R30, R31, 42_control_transfer.md R164) -/

theorem dispatch_of_halted (hh : s.halted = true) (line : Text) : dispatch line s = .next s :=
  if_pos hh

theorem step_of_halted (hh : s.halted = true) : step s = .next s :=
  if_pos hh

theorem step_of_past_end (hh : s.halted = false) (hpc : s.program.length ≤ s.pc) :
    step s = .next s := by
  simp [step, loopStep, hh, fetch_none.mpr hpc]

/-- A running state fetches a line. -/
theorem fetch_of_running (h : s.ended = none) : s.halted = false ∧ ∃ line, s.fetch = some line := by
  obtain ⟨hh, hpc⟩ := ended_eq_none.mp h
  exact ⟨hh, _, List.getElem?_eq_getElem hpc⟩

theorem step_ne_refused {w : Refusal} : step s ≠ .refused w := by
  cases hh : s.halted with
  | true => rw [step_of_halted hh]; nofun
  | false =>
    cases hf : s.fetch with
    | none => rw [step_of_past_end hh (fetch_none.mp hf)]; nofun
    | some line =>
      cases hd : decode s.params line with
      | error c => rw [step_of_decode_error hh hf hd]; nofun
      | ok i => exact step_of_decode_ok hh hf hd ▸ exec_ne_refused

/-- Settles O49: a step answers the same state, the decoder's error or what the instruction
answers, and no instruction is refused. -/
theorem stepNeverRefuses : Obligations.StepNeverRefuses := fun _ _ => step_ne_refused

/-- Settles O48: the loop fetches, dispatches and executes. -/
theorem stepRunsDecodedInstruction : Obligations.StepRunsDecodedInstruction :=
  fun _ _ _ => step_of_decode_ok

/-- Settles O43: the flag is tested before the fetch, in the dispatch and in the run loop. -/
theorem haltedDispatchHasNoEffect : Obligations.HaltedDispatchHasNoEffect := fun _ hh =>
  ⟨dispatch_of_halted hh, fun _ => step_of_halted hh, runFor_of_ended (ended_of_halted hh)⟩

theorem exec_halted_iff (hh : s.halted = false) (h : exec i s = .next t) :
    t.halted = true ↔ i = .hlt := by
  refine ⟨fun ht => ?_, fun hi => exec_hlt_halted (hi ▸ h)⟩
  by_contra hi
  rw [exec_keeps_halted hi h, hh] at ht
  cases ht

/-- Settles O42: the step of a running core executes the line it fetched, and `HLT` alone halts. -/
theorem onlyHltHalts : Obligations.OnlyHltHalts := by
  intro s t h
  rcases step_next h with ⟨hh, rfl⟩ | ⟨hh, hf, rfl⟩ | ⟨hh, line, i, hf, hd, hexec⟩
  · exact ⟨fun hrun => absurd hh (by simp [hrun]), fun _ => rfl⟩
  · exact ⟨fun _ => by simp [hh, hf], fun _ => rfl⟩
  · refine ⟨fun _ => ?_, fun hhalt => absurd hhalt (by simp [hh])⟩
    rw [exec_halted_iff hh hexec]
    simp [hf, hd]

/-- Settles O60: the operand is decoded before carry is looked at, so its error is the step's under
either carry. -/
theorem jcOperandDecodedWhateverCarry : Obligations.JcOperandDecodedWhateverCarry := by
  intro s line t u c hh hf ht hup
  refine ⟨fun e he => ?_, fun a ha => ?_⟩
  · obtain rfl := addrOperand_error he
    have hstep : step { s with carry := c } =
        .fault (.lineError (s.pc + 1) (.invalidOperand u)) :=
      step_of_decode_error hh hf ((decode_jc ht hup).trans (decodeT2A_of_error he))
    exact ⟨rfl, hstep, runFor_succ_of_fault (ended_of_fetch (line := line) hh hf) hstep⟩
  · exact step_of_decode_ok hh hf ((decode_jc ht hup).trans (decodeT2A_of_ok ha))

/-! ### A run that has ended (42_control_transfer.md R173) -/

theorem ended_eq_some (h : s.ended = some r) :
    (r = .halted s.outputText ∧ s.halted = true) ∨
    (r = .exhausted s.outputText ∧ s.halted = false ∧ s.program.length ≤ s.pc) := by
  unfold State.ended at h
  split at h
  · cases h
    exact .inl ⟨rfl, ‹_›⟩
  · split at h <;> cases h
    exact .inr ⟨rfl, by simpa using ‹¬s.halted = true›, ‹_›⟩

theorem step_of_ended (h : s.ended = some r) : step s = .next s := by
  rcases ended_eq_some h with ⟨_, hh⟩ | ⟨_, hh, hpc⟩
  · exact step_of_halted hh
  · exact step_of_past_end hh hpc

/-- Settles O51: both ends leave the state as it is, and the run's result is the end's. -/
theorem endedRunStays : Obligations.EndedRunStays := by
  refine fun s r h => ⟨step_of_ended h, runFor_of_ended h, s.outputText, ?_⟩
  rcases ended_eq_some h with hhalt | ⟨hr, hh, _⟩
  · exact .inl hhalt
  · exact .inr ⟨hr, hh⟩

/-! ### The ceiling (42_control_transfer.md R174) -/

theorem runSteps_succ_of_fault {f : Fault} (hs : step s = .fault f) (k : Nat) :
    runSteps (k + 1) s = .fault f := by
  rw [step] at hs
  simp [runSteps, hs]

theorem runSteps_of_fixed (hs : step s = .next s) (k : Nat) : runSteps k s = .next s := by
  induction k with
  | zero => rfl
  | succ k ih => rw [runSteps_succ_of_next hs, ih]

theorem runFor_normal_of_ended (h : s.ended = some r) (k : Nat) :
    ∃ out, runFor k s = .halted out ∨ runFor k s = .exhausted out := by
  rw [runFor_of_ended h]
  rcases ended_eq_some h with ⟨hr, _⟩ | ⟨hr, _⟩
  · exact ⟨_, .inl hr⟩
  · exact ⟨_, .inr hr⟩

theorem runFor_ne_outOfSteps_of_ended (h : s.ended = some r) (k : Nat) :
    runFor k s ≠ .outOfSteps := by
  obtain ⟨out, hout | hout⟩ := runFor_normal_of_ended h k <;> rw [hout] <;> nofun

/-- Under a ceiling of one step or more a run has ended, goes on from the next state, or faults. -/
theorem runFor_succ_cases (k : Nat) (s : State) :
    (∃ r, s.ended = some r) ∨
    (∃ t, s.ended = none ∧ step s = .next t ∧ runFor (k + 1) s = runFor k t) ∨
    (∃ f, s.ended = none ∧ step s = .fault f ∧ runFor (k + 1) s = .faulted f) := by
  rcases hend : s.ended with _ | r
  · rcases hstep : step s with t | f | w
    · exact .inr (.inl ⟨t, rfl, rfl, runFor_succ_of_next hend hstep k⟩)
    · exact .inr (.inr ⟨f, rfl, rfl, runFor_succ_of_fault hend hstep k⟩)
    · exact absurd hstep step_ne_refused
  · exact .inl ⟨r, rfl⟩

/-- A state whose run has ended is the one that any number of steps leads to. -/
theorem runFor_eq_outOfSteps_iff_of_ended (h : s.ended = some r) (k : Nat) :
    runFor k s = .outOfSteps ↔ ∃ t, runSteps k s = .next t ∧ t.ended = none := by
  refine ⟨fun ho => absurd ho (runFor_ne_outOfSteps_of_ended h k), fun ⟨t, hrun, ht⟩ => ?_⟩
  rw [runSteps_of_fixed (step_of_ended h)] at hrun
  cases hrun
  cases h.symm.trans ht

/-- The run is out of steps exactly when the steps of the ceiling lead to a state still running. -/
theorem runFor_eq_outOfSteps_iff (k : Nat) (s : State) :
    runFor k s = .outOfSteps ↔ ∃ t, runSteps k s = .next t ∧ t.ended = none := by
  induction k generalizing s with
  | zero =>
    rcases hend : s.ended with _ | r
    · exact ⟨fun _ => ⟨s, rfl, hend⟩, fun _ => runFor_zero_of_running hend⟩
    · exact runFor_eq_outOfSteps_iff_of_ended hend 0
  | succ k ih =>
    rcases runFor_succ_cases k s with ⟨r, hend⟩ | ⟨t, _, hstep, hrun⟩ | ⟨f, _, hstep, hrun⟩
    · exact runFor_eq_outOfSteps_iff_of_ended hend (k + 1)
    · rw [hrun, runSteps_succ_of_next hstep]
      exact ih t
    · rw [hrun, runSteps_succ_of_fault hstep]
      exact ⟨nofun, nofun⟩

/-- Settles O56, by induction on the ceiling. -/
theorem ceilingReportsOutOfSteps : Obligations.CeilingReportsOutOfSteps :=
  fun s k => runFor_eq_outOfSteps_iff k s

/-- Settles O57: the jump leads back to the same state, which is running after any number of
steps. -/
theorem jumpToSelfNeverEnds : Obligations.JumpToSelfNeverEnds := by
  intro s line i hh hf hd hi k
  have hexec : exec i s = .next s := exec_taken_jump_of_nonneg hi (Int.natCast_nonneg s.pc)
  have hstep : step s = .next s := (step_of_decode_ok hh hf hd).trans hexec
  exact (runFor_eq_outOfSteps_iff k s).mpr
    ⟨s, runSteps_of_fixed hstep k, ended_of_fetch hh hf⟩

/-! ### One result (60_exceptions.md R216) -/

/-- A result under a ceiling is the result under every higher one. -/
theorem runFor_mono {m : Nat} (hkm : k ≤ m) (h : runFor k s ≠ .outOfSteps) :
    runFor m s = runFor k s := by
  induction k generalizing s m with
  | zero =>
    rcases hend : s.ended with _ | r
    · exact absurd (runFor_zero_of_running hend) h
    · rw [runFor_of_ended hend, runFor_of_ended hend]
  | succ k ih =>
    obtain ⟨m, rfl⟩ := Nat.exists_eq_add_of_le' (Nat.zero_lt_of_lt hkm)
    rcases runFor_succ_cases k s with ⟨r, hend⟩ | ⟨t, hend, hstep, hrun⟩ | ⟨f, hend, hstep, hrun⟩
    · rw [runFor_of_ended hend, runFor_of_ended hend]
    · rw [hrun] at h ⊢
      rw [runFor_succ_of_next hend hstep]
      exact ih (Nat.le_of_succ_le_succ hkm) h
    · rw [hrun, runFor_succ_of_fault hend hstep]

theorem runText_eq_of_ne_outOfSteps {k m : Nat} (hk : runText p k text ≠ .outOfSteps)
    (hm : runText p m text ≠ .outOfSteps) : runText p k text = runText p m text := by
  rcases le_total k m with h | h
  · exact (runFor_mono h hk).symm
  · exact runFor_mono h hm

/-- Settles O55: a result is kept by every higher ceiling, so two results without a ceiling of their
own agree at the higher of the two that reach them. -/
theorem runResultIsUnique : Obligations.RunResultIsUnique := by
  refine ⟨fun p text k m r hr hne hkm => ?_, fun p text r r' h h' => ?_⟩
  · subst hr
    exact runFor_mono hkm hne
  · cases hmax : p.maxSteps with
    | some k =>
      simp only [RunsTo, hmax] at h h'
      exact h.symm.trans h'
    | none =>
      simp only [RunsTo, hmax] at h h'
      obtain ⟨hne, k, rfl⟩ := h
      obtain ⟨hne', m, rfl⟩ := h'
      exact runText_eq_of_ne_outOfSteps hne hne'

/-! ### Runs without jumps (42_control_transfer.md R160, R161) -/

/-- No line of the program decodes to a jump. -/
def State.JumpFree (s : State) : Prop :=
  ∀ line ∈ s.program, ∀ a, decode s.params line ≠ .ok (.jmp a) ∧ decode s.params line ≠ .ok (.jc a)

theorem step_keeps_jumpFree (hj : s.JumpFree) (h : step s = .next t) : t.JumpFree := by
  obtain ⟨hprogram, hparams⟩ := step_program h
  rw [State.JumpFree, hprogram, hparams]
  exact hj

theorem step_pc_of_jumpFree (hj : s.JumpFree) (hend : s.ended = none) (h : step s = .next t) :
    t.pc = s.pc + 1 := by
  obtain ⟨hh, line, hf⟩ := fetch_of_running hend
  rcases step_next h with ⟨hhalt, _⟩ | ⟨_, hnone, _⟩ | ⟨_, line, i, hf, hd, hexec⟩
  · cases hh.symm.trans hhalt
  · cases hf.symm.trans hnone
  · have hline := hj line (List.mem_of_getElem? hf)
    refine exec_pc_of_not_taken (fun a hi => ?_) (fun a hi => ?_) hexec
    · exact absurd (hi ▸ hd) (hline a).1
    · exact absurd (hi ▸ hd) (hline a).2

/-- Each step of a jump-free run is one line nearer to the end. -/
theorem runFor_ne_outOfSteps_of_jumpFree (hj : s.JumpFree) (hk : s.program.length ≤ s.pc + k) :
    runFor k s ≠ .outOfSteps := by
  induction k generalizing s with
  | zero =>
    rcases hend : s.ended with _ | r
    · exact absurd (ended_eq_none.mp hend).2 (not_lt.mpr hk)
    · exact runFor_ne_outOfSteps_of_ended hend 0
  | succ k ih =>
    rcases runFor_succ_cases k s with ⟨r, hend⟩ | ⟨t, hend, hstep, hrun⟩ | ⟨f, _, _, hrun⟩
    · exact runFor_ne_outOfSteps_of_ended hend (k + 1)
    · rw [hrun]
      refine ih (step_keeps_jumpFree hj hstep) ?_
      rw [(step_program hstep).1, step_pc_of_jumpFree hj hend hstep]
      omega
    · rw [hrun]
      nofun

theorem runFor_result (k : Nat) (s : State) :
    (∃ out, runFor k s = .halted out ∨ runFor k s = .exhausted out) ∨
    (∃ f, runFor k s = .faulted f) ∨ runFor k s = .outOfSteps := by
  induction k generalizing s with
  | zero =>
    rcases hend : s.ended with _ | r
    · exact .inr (.inr (runFor_zero_of_running hend))
    · exact .inl (runFor_normal_of_ended hend 0)
  | succ k ih =>
    rcases runFor_succ_cases k s with ⟨r, hend⟩ | ⟨t, _, _, hrun⟩ | ⟨f, _, _, hrun⟩
    · exact .inl (runFor_normal_of_ended hend (k + 1))
    · exact hrun ▸ ih t
    · exact .inr (.inl ⟨f, hrun⟩)

/-- Settles O58: every step advances, so the lines run out within their number, and a run that
neither faults nor is out of steps has ended normally. -/
theorem jumpFreeRunEnds : Obligations.JumpFreeRunEnds := by
  intro p text hj
  have hne : runText p (splitLines text).length text ≠ .outOfSteps :=
    runFor_ne_outOfSteps_of_jumpFree (s := State.start p text) hj (Nat.le_add_left _ _)
  refine ⟨hne, fun hsafe => ?_⟩
  rcases runFor_result (splitLines text).length (State.start p text) with hend | ⟨f, hf⟩ | hout
  · exact hend
  · exact absurd hf (hsafe _ f)
  · exact absurd hout hne

end Sys2Proof.Machine
end
